-- ==== Sys2Proof/Word.lean ====
section
/-! DEFINITION. The word types of the machine: bytes, 16-bit words, register indices (00_scope.md R8, R10). -/

namespace Sys2Proof

/-- A byte: one memory cell, one V register, one timer (20_memory.md R60, 10_state.md R20). -/
abbrev Byte := BitVec 8

/-- A 16-bit word: `pc`, `I`, a stack entry, an instruction word (10_state.md R22 to R24, 30_encoding.md R90). -/
abbrev Word := BitVec 16

/-- A 12-bit address operand `nnn` (30_encoding.md R91). -/
abbrev Addr12 := BitVec 12

/-- The index of one of the sixteen registers V0 to VF (10_state.md R20). -/
abbrev RegIdx := Fin 16

/-- `zext_16` of a byte (00_scope.md R10). -/
abbrev zextByte (b : Byte) : Word := b.setWidth 16

/-- `zext_16` of a 12-bit address (30_encoding.md R93). -/
abbrev zextAddr (a : Addr12) : Word := a.setWidth 16

/-- The index of VF, the flag register (10_state.md R21). -/
abbrev regF : RegIdx := 15

end Sys2Proof
end

