-- ==== Sys2Proof/Config.lean ====
section
/-! DEFINITION. The fixed sizes and the OPEN parameters of 00_scope.md R7, and the free values that stand for host inputs nobody has named yet. -/

namespace Sys2Proof.Config

/-- LOAD_BASE: the address of the first program byte and of the first instruction (R7, R241). -/
abbrev loadBase : Nat := 0x200

/-- MEM_SIZE (R7, R60). -/
abbrev memSize : Nat := 4096

/-- MAX_ROM, the largest program image: 4096 - 512 (R7, R73). -/
abbrev maxRom : Nat := 3584

/-- STACK_DEPTH (R7, R24). -/
abbrev stackDepth : Nat := 16

/-- The number of font bytes: 16 glyphs of 5 bytes (R7, R66). -/
abbrev fontSize : Nat := 80

/-- The two OPEN parameters of R7 (D11): FONT_BASE, constrained to 0 ≤ FONT_BASE ≤ 0x1B0, and FONT_DATA.
A state carries them in a field no step writes, so that a statement about every state holds for every font (log 4). -/
structure Font where
  /-- FONT_BASE, the address of glyph 0. -/
  base : Fin 0x1B1
  /-- FONT_DATA, the glyph bytes: glyph d is bytes 5d to 5d + 4 (R66). -/
  data : Vector Byte 80
deriving DecidableEq, Repr

/-- The default table of 20_memory.md R66. PRESUMED: the spec marks it as general knowledge, not in the source (G2, log 4). -/
def defaultFontData : Vector Byte 80 :=
  (#v[0xF0, 0x90, 0x90, 0x90, 0xF0,  0x20, 0x60, 0x20, 0x20, 0x70,
     0xF0, 0x10, 0xF0, 0x80, 0xF0,  0xF0, 0x10, 0xF0, 0x10, 0xF0,
     0x90, 0x90, 0xF0, 0x10, 0x10,  0xF0, 0x80, 0xF0, 0x10, 0xF0,
     0xF0, 0x80, 0xF0, 0x90, 0xF0,  0xF0, 0x10, 0x20, 0x40, 0x40] : Vector Byte 40) ++
  (#v[0xF0, 0x90, 0xF0, 0x90, 0xF0,  0xF0, 0x90, 0xF0, 0x10, 0xF0,
     0xF0, 0x90, 0xF0, 0x90, 0x90,  0xE0, 0x90, 0xE0, 0x90, 0xE0,
     0xF0, 0x80, 0x80, 0x80, 0xF0,  0xE0, 0x90, 0x90, 0x90, 0xE0,
     0xF0, 0x80, 0xF0, 0x80, 0xF0,  0xF0, 0x80, 0xF0, 0x80, 0x80] : Vector Byte 40)

/-- FONT_BASE = 0x050 with the default table. PRESUMED: the spec marks both as general knowledge (G1, G2, log 4). -/
def defaultFont : Font := { base := 0x050, data := defaultFontData }

/-- FREE VALUE: the key state of a step for which the state lists no host input (10_state.md R30, log 2). No body: nothing can be proved about it. -/
opaque freeKeys : Nat → BitVec 16

/-- FREE VALUE: the random byte of a step for which the state lists no host input, a draw under no law (10_state.md R31, D15, log 2). -/
opaque freeRnd : Nat → Byte

end Sys2Proof.Config
end

