-- ==== Sys2Proof/Syntax.lean ====
section
/-! DEFINITION. The 34 instructions, one constructor per row of spec/opcode_table.json, in the table's order (30_encoding.md R94). -/

namespace Sys2Proof

/-- An instruction with its operands (30_encoding.md R91 to R94). Operands are `x`, `y` register indices,
`kk` an 8-bit immediate, `nnn` a 12-bit address, `n` a number of sprite rows; every value of each is legal (R93). -/
inductive Instr where
  /-- 00E0 clear the framebuffer (R140). -/
  | cls
  /-- 00EE return from subroutine (R150). -/
  | ret
  /-- 1nnn jump (R151). -/
  | jp (nnn : Addr12)
  /-- 2nnn call subroutine (R152). -/
  | call (nnn : Addr12)
  /-- 3xkk skip if Vx = kk (R153). -/
  | seVxKk (x : RegIdx) (kk : Byte)
  /-- 4xkk skip if Vx ≠ kk (R154). -/
  | sneVxKk (x : RegIdx) (kk : Byte)
  /-- 5xy0 skip if Vx = Vy (R155). -/
  | seVxVy (x y : RegIdx)
  /-- 6xkk load immediate (R170). -/
  | ldVxKk (x : RegIdx) (kk : Byte)
  /-- 7xkk add immediate, no flag (R171). -/
  | addVxKk (x : RegIdx) (kk : Byte)
  /-- 8xy0 copy register (R172). -/
  | ldVxVy (x y : RegIdx)
  /-- 8xy1 bitwise OR (R173). -/
  | orVxVy (x y : RegIdx)
  /-- 8xy2 bitwise AND (R174). -/
  | andVxVy (x y : RegIdx)
  /-- 8xy3 bitwise exclusive OR (R175). -/
  | xorVxVy (x y : RegIdx)
  /-- 8xy4 add with carry out (R176). -/
  | addVxVy (x y : RegIdx)
  /-- 8xy5 subtract (R177). -/
  | subVxVy (x y : RegIdx)
  /-- 8xy6 shift right by one; `y` is decoded and ignored (R178, R99). -/
  | shrVx (x y : RegIdx)
  /-- 8xy7 reverse subtract (R179). -/
  | subnVxVy (x y : RegIdx)
  /-- 8xyE shift left by one; `y` is decoded and ignored (R180, R99). -/
  | shlVx (x y : RegIdx)
  /-- 9xy0 skip if Vx ≠ Vy (R156). -/
  | sneVxVy (x y : RegIdx)
  /-- Annn load index (R190). -/
  | ldINnn (nnn : Addr12)
  /-- Bnnn jump to V0 + nnn (R157). -/
  | jpV0Nnn (nnn : Addr12)
  /-- Cxkk masked random byte (R200). -/
  | rndVxKk (x : RegIdx) (kk : Byte)
  /-- Dxyn draw an n-row sprite (R141). -/
  | drwVxVyN (x y : RegIdx) (n : Fin 16)
  /-- Ex9E skip if key down (R201). -/
  | skpVx (x : RegIdx)
  /-- ExA1 skip if key up (R202). -/
  | sknpVx (x : RegIdx)
  /-- Fx07 read the delay timer (R203). -/
  | ldVxDt (x : RegIdx)
  /-- Fx0A wait for a key (R204). -/
  | ldVxK (x : RegIdx)
  /-- Fx15 set the delay timer (R205). -/
  | ldDtVx (x : RegIdx)
  /-- Fx18 set the sound timer (R206). -/
  | ldStVx (x : RegIdx)
  /-- Fx1E add register to index (R191). -/
  | addIVx (x : RegIdx)
  /-- Fx29 point I at a font glyph (R192). -/
  | ldFVx (x : RegIdx)
  /-- Fx33 store binary-coded decimal (R193). -/
  | ldBVx (x : RegIdx)
  /-- Fx55 store V0 to Vx (R194). -/
  | ldMemVx (x : RegIdx)
  /-- Fx65 load V0 to Vx (R195). -/
  | ldVxMem (x : RegIdx)
deriving DecidableEq, Repr

end Sys2Proof
end

