-- ==== Sys2Proof/WellFormed.lean ====
section
/-! DEFINITION. Which 16-bit words are instructions at all, family by family as 30_encoding.md R95 and R97 list them.
Every operand value of every instruction is legal (R93, R94) and the operand types of `Instr` are exactly the fields' ranges,
so the checks are about words: each family with a secondary selector has one. Written over numbers, apart from the decoder. -/

namespace Sys2Proof

/-- Family 0: the whole word must equal 0x00E0 or 0x00EE (R95). -/
def wellFormed0 (w : Word) : Bool := w.toNat == 0x00E0 || w.toNat == 0x00EE

/-- Families 5 and 9: `n` must be 0 (R96, D8). -/
def wellFormed5and9 (w : Word) : Bool := w.toNat % 16 == 0

/-- Family 8: `n` is one of 0 to 7 and E (R95). -/
def wellFormed8 (w : Word) : Bool := w.toNat % 16 ≤ 7 || w.toNat % 16 == 0xE

/-- Family E: `kk` is 9E or A1 (R95). -/
def wellFormedE (w : Word) : Bool := w.toNat % 256 == 0x9E || w.toNat % 256 == 0xA1

/-- Family F: `kk` is one of the nine listed selectors (R95). -/
def wellFormedF (w : Word) : Bool :=
  [0x07, 0x0A, 0x15, 0x18, 0x1E, 0x29, 0x33, 0x55, 0x65].contains (w.toNat % 256)

/-- A word is one of the 43954 legal words (R97). -/
def wordWellFormed (w : Word) : Bool :=
  match w.toNat / 4096 with
  | 0x0 => wellFormed0 w
  | 0x5 => wellFormed5and9 w
  | 0x8 => wellFormed8 w
  | 0x9 => wellFormed5and9 w
  | 0xE => wellFormedE w
  | 0xF => wellFormedF w
  | _ => true

end Sys2Proof
end

