-- ==== Sys2Proof/Decode.lean ====
section
/-! DEFINITION. The dispatch decoder of 40_cycle_and_dispatch.md R130, total on every word and every byte string, rejecting by name;
after it the encoder, written from the formats of 30_encoding.md R92, and the opcode table's rows (R94). -/

namespace Sys2Proof

/-- Why a byte string holds no instruction. The first five are the illegal words of 30_encoding.md R97 by family; `truncated` is
a byte string too short to hold a word, which a fetch never meets (R122: it always reads two bytes). -/
inductive DecodeReject where
  /-- Family 0, and the word is neither 00E0 nor 00EE. -/
  | unlistedFamily0
  /-- Family 5 or 9 with `n` ≠ 0 (D8). -/
  | nonzeroLowNibble
  /-- Family 8 with `n` in 8 to D or F. -/
  | unlistedFamily8
  /-- Family E with `kk` neither 9E nor A1. -/
  | unlistedFamilyE
  /-- Family F with an unlisted `kk`. -/
  | unlistedFamilyF
  /-- Fewer than two bytes. -/
  | truncated
deriving DecidableEq, Repr

/-! ## Fields of the instruction word (R91) -/

/-- `op = w[15:12]`. -/
def opField (w : Word) : Fin 16 := (w.extractLsb' 12 4).toFin
/-- `x = w[11:8]`. -/
def xField (w : Word) : RegIdx := (w.extractLsb' 8 4).toFin
/-- `y = w[7:4]`. -/
def yField (w : Word) : RegIdx := (w.extractLsb' 4 4).toFin
/-- `n = w[3:0]`. -/
def nField (w : Word) : Fin 16 := (w.extractLsb' 0 4).toFin
/-- `kk = w[7:0]`. -/
def kkField (w : Word) : Byte := w.extractLsb' 0 8
/-- `nnn = w[11:0]`. -/
def nnnField (w : Word) : Addr12 := w.extractLsb' 0 12

/-! ## Secondary dispatch (R96, R130) -/

/-- Family 0: the whole word selects. -/
def decodeFamily0 (w : Word) : Except DecodeReject Instr :=
  if w = 0x00E0 then .ok .cls else if w = 0x00EE then .ok .ret else .error .unlistedFamily0

/-- Family 8: the low nibble selects. -/
def decodeFamily8 (w : Word) : Except DecodeReject Instr :=
  match (nField w).val with
  | 0x0 => .ok (.ldVxVy (xField w) (yField w))
  | 0x1 => .ok (.orVxVy (xField w) (yField w))
  | 0x2 => .ok (.andVxVy (xField w) (yField w))
  | 0x3 => .ok (.xorVxVy (xField w) (yField w))
  | 0x4 => .ok (.addVxVy (xField w) (yField w))
  | 0x5 => .ok (.subVxVy (xField w) (yField w))
  | 0x6 => .ok (.shrVx (xField w) (yField w))
  | 0x7 => .ok (.subnVxVy (xField w) (yField w))
  | 0xE => .ok (.shlVx (xField w) (yField w))
  | _ => .error .unlistedFamily8

/-- Family E: the low byte selects. -/
def decodeFamilyE (w : Word) : Except DecodeReject Instr :=
  if kkField w = 0x9E then .ok (.skpVx (xField w))
  else if kkField w = 0xA1 then .ok (.sknpVx (xField w))
  else .error .unlistedFamilyE

/-- Family F: the low byte selects. -/
def decodeFamilyF (w : Word) : Except DecodeReject Instr :=
  match (kkField w).toNat with
  | 0x07 => .ok (.ldVxDt (xField w))
  | 0x0A => .ok (.ldVxK (xField w))
  | 0x15 => .ok (.ldDtVx (xField w))
  | 0x18 => .ok (.ldStVx (xField w))
  | 0x1E => .ok (.addIVx (xField w))
  | 0x29 => .ok (.ldFVx (xField w))
  | 0x33 => .ok (.ldBVx (xField w))
  | 0x55 => .ok (.ldMemVx (xField w))
  | 0x65 => .ok (.ldVxMem (xField w))
  | _ => .error .unlistedFamilyF

/-- The decoder: primary dispatch on the top nibble (R95, R130). A total function of the word alone (R100). -/
def decodeWord (w : Word) : Except DecodeReject Instr :=
  match (opField w).val with
  | 0x0 => decodeFamily0 w
  | 0x1 => .ok (.jp (nnnField w))
  | 0x2 => .ok (.call (nnnField w))
  | 0x3 => .ok (.seVxKk (xField w) (kkField w))
  | 0x4 => .ok (.sneVxKk (xField w) (kkField w))
  | 0x5 => if nField w = 0 then .ok (.seVxVy (xField w) (yField w)) else .error .nonzeroLowNibble
  | 0x6 => .ok (.ldVxKk (xField w) (kkField w))
  | 0x7 => .ok (.addVxKk (xField w) (kkField w))
  | 0x8 => decodeFamily8 w
  | 0x9 => if nField w = 0 then .ok (.sneVxVy (xField w) (yField w)) else .error .nonzeroLowNibble
  | 0xA => .ok (.ldINnn (nnnField w))
  | 0xB => .ok (.jpV0Nnn (nnnField w))
  | 0xC => .ok (.rndVxKk (xField w) (kkField w))
  | 0xD => .ok (.drwVxVyN (xField w) (yField w) (nField w))
  | 0xE => decodeFamilyE w
  | _ => decodeFamilyF w

/-- The word of two consecutive bytes: the first is the high byte (20_memory.md R62). -/
def wordOfBytes (hi lo : Byte) : Word := hi ++ lo

/-- The two bytes of a word as they lie in memory, the high byte first (R62, R90). -/
def bytesOfWord (w : Word) : Byte × Byte := (w.extractLsb' 8 8, w.extractLsb' 0 8)

/-- Decoding a byte string: the instruction of its first two bytes, and the rest. -/
def decodeBytes : List Byte → Except DecodeReject (Instr × List Byte)
  | hi :: lo :: rest => (decodeWord (wordOfBytes hi lo)).map (·, rest)
  | _ => .error .truncated

/-- The instruction the decoder reads from a word given as spec/opcode_table.json numbers its bits: an instruction is one 16-bit
word (R90), so bit i of `w` is bit i of the word. The word is laid out in memory order and decoded from its bytes. -/
def decodeTableWord (nbits w : Nat) : Option Instr :=
  let word : Word := BitVec.ofNat 16 (w % 2 ^ nbits)
  match decodeBytes [(bytesOfWord word).1, (bytesOfWord word).2] with
  | .ok (i, _) => some i
  | .error _ => none

/-! ## The encoder, from the formats of R92 and the rows of R94 -/

/-- Format NNN: `op nnn`. -/
def packNnn (op : BitVec 4) (nnn : Addr12) : Word := op ++ nnn
/-- Format XKK (and X, whose selector stands where `kk` does): `op x kk`. -/
def packXkk (op : BitVec 4) (x : RegIdx) (kk : Byte) : Word := op ++ BitVec.ofNat 4 x ++ kk
/-- Formats XY and XYN: `op x y n`. -/
def packXyn (op : BitVec 4) (x y n : Fin 16) : Word := op ++ BitVec.ofNat 4 x ++ BitVec.ofNat 4 y ++ BitVec.ofNat 4 n

/-- The word of an instruction (R92, R94). -/
def encode : Instr → Word
  | .cls => 0x00E0
  | .ret => 0x00EE
  | .jp nnn => packNnn 0x1 nnn
  | .call nnn => packNnn 0x2 nnn
  | .seVxKk x kk => packXkk 0x3 x kk
  | .sneVxKk x kk => packXkk 0x4 x kk
  | .seVxVy x y => packXyn 0x5 x y 0
  | .ldVxKk x kk => packXkk 0x6 x kk
  | .addVxKk x kk => packXkk 0x7 x kk
  | .ldVxVy x y => packXyn 0x8 x y 0x0
  | .orVxVy x y => packXyn 0x8 x y 0x1
  | .andVxVy x y => packXyn 0x8 x y 0x2
  | .xorVxVy x y => packXyn 0x8 x y 0x3
  | .addVxVy x y => packXyn 0x8 x y 0x4
  | .subVxVy x y => packXyn 0x8 x y 0x5
  | .shrVx x y => packXyn 0x8 x y 0x6
  | .subnVxVy x y => packXyn 0x8 x y 0x7
  | .shlVx x y => packXyn 0x8 x y 0xE
  | .sneVxVy x y => packXyn 0x9 x y 0
  | .ldINnn nnn => packNnn 0xA nnn
  | .jpV0Nnn nnn => packNnn 0xB nnn
  | .rndVxKk x kk => packXkk 0xC x kk
  | .drwVxVyN x y n => packXyn 0xD x y n
  | .skpVx x => packXkk 0xE x 0x9E
  | .sknpVx x => packXkk 0xE x 0xA1
  | .ldVxDt x => packXkk 0xF x 0x07
  | .ldVxK x => packXkk 0xF x 0x0A
  | .ldDtVx x => packXkk 0xF x 0x15
  | .ldStVx x => packXkk 0xF x 0x18
  | .addIVx x => packXkk 0xF x 0x1E
  | .ldFVx x => packXkk 0xF x 0x29
  | .ldBVx x => packXkk 0xF x 0x33
  | .ldMemVx x => packXkk 0xF x 0x55
  | .ldVxMem x => packXkk 0xF x 0x65

/-- The name of an instruction's row in spec/opcode_table.json. -/
def mnemonicOf : Instr → String
  | .cls => "CLS"
  | .ret => "RET"
  | .jp _ => "JP"
  | .call _ => "CALL"
  | .seVxKk _ _ => "SE_VX_KK"
  | .sneVxKk _ _ => "SNE_VX_KK"
  | .seVxVy _ _ => "SE_VX_VY"
  | .ldVxKk _ _ => "LD_VX_KK"
  | .addVxKk _ _ => "ADD_VX_KK"
  | .ldVxVy _ _ => "LD_VX_VY"
  | .orVxVy _ _ => "OR_VX_VY"
  | .andVxVy _ _ => "AND_VX_VY"
  | .xorVxVy _ _ => "XOR_VX_VY"
  | .addVxVy _ _ => "ADD_VX_VY"
  | .subVxVy _ _ => "SUB_VX_VY"
  | .shrVx _ _ => "SHR_VX"
  | .subnVxVy _ _ => "SUBN_VX_VY"
  | .shlVx _ _ => "SHL_VX"
  | .sneVxVy _ _ => "SNE_VX_VY"
  | .ldINnn _ => "LD_I_NNN"
  | .jpV0Nnn _ => "JP_V0_NNN"
  | .rndVxKk _ _ => "RND_VX_KK"
  | .drwVxVyN _ _ _ => "DRW_VX_VY_N"
  | .skpVx _ => "SKP_VX"
  | .sknpVx _ => "SKNP_VX"
  | .ldVxDt _ => "LD_VX_DT"
  | .ldVxK _ => "LD_VX_K"
  | .ldDtVx _ => "LD_DT_VX"
  | .ldStVx _ => "LD_ST_VX"
  | .addIVx _ => "ADD_I_VX"
  | .ldFVx _ => "LD_F_VX"
  | .ldBVx _ => "LD_B_VX"
  | .ldMemVx _ => "LD_MEM_VX"
  | .ldVxMem _ => "LD_VX_MEM"

/-! ## The rows of the opcode table (R94) -/

/-- A row of R94: a word `w` selects it when `w & mask = pattern`. -/
structure OpcodeRow where
  mnemonic : String
  pattern : Word
  mask : Word
deriving DecidableEq, Repr

/-- The word selects the row (R94). -/
def rowSelects (r : OpcodeRow) (w : Word) : Bool := w &&& r.mask == r.pattern

/-- The rows 00E0 to 7xkk. -/
def opcodeRowsLow : List OpcodeRow :=
  [⟨"CLS", 0x00E0, 0xFFFF⟩, ⟨"RET", 0x00EE, 0xFFFF⟩, ⟨"JP", 0x1000, 0xF000⟩, ⟨"CALL", 0x2000, 0xF000⟩,
   ⟨"SE_VX_KK", 0x3000, 0xF000⟩, ⟨"SNE_VX_KK", 0x4000, 0xF000⟩, ⟨"SE_VX_VY", 0x5000, 0xF00F⟩,
   ⟨"LD_VX_KK", 0x6000, 0xF000⟩, ⟨"ADD_VX_KK", 0x7000, 0xF000⟩]

/-- The rows 8xy0 to 9xy0. -/
def opcodeRowsMid : List OpcodeRow :=
  [⟨"LD_VX_VY", 0x8000, 0xF00F⟩, ⟨"OR_VX_VY", 0x8001, 0xF00F⟩, ⟨"AND_VX_VY", 0x8002, 0xF00F⟩,
   ⟨"XOR_VX_VY", 0x8003, 0xF00F⟩, ⟨"ADD_VX_VY", 0x8004, 0xF00F⟩, ⟨"SUB_VX_VY", 0x8005, 0xF00F⟩,
   ⟨"SHR_VX", 0x8006, 0xF00F⟩, ⟨"SUBN_VX_VY", 0x8007, 0xF00F⟩, ⟨"SHL_VX", 0x800E, 0xF00F⟩,
   ⟨"SNE_VX_VY", 0x9000, 0xF00F⟩]

/-- The rows Annn to Fx65. -/
def opcodeRowsHigh : List OpcodeRow :=
  [⟨"LD_I_NNN", 0xA000, 0xF000⟩, ⟨"JP_V0_NNN", 0xB000, 0xF000⟩, ⟨"RND_VX_KK", 0xC000, 0xF000⟩,
   ⟨"DRW_VX_VY_N", 0xD000, 0xF000⟩, ⟨"SKP_VX", 0xE09E, 0xF0FF⟩, ⟨"SKNP_VX", 0xE0A1, 0xF0FF⟩,
   ⟨"LD_VX_DT", 0xF007, 0xF0FF⟩, ⟨"LD_VX_K", 0xF00A, 0xF0FF⟩, ⟨"LD_DT_VX", 0xF015, 0xF0FF⟩,
   ⟨"LD_ST_VX", 0xF018, 0xF0FF⟩, ⟨"ADD_I_VX", 0xF01E, 0xF0FF⟩, ⟨"LD_F_VX", 0xF029, 0xF0FF⟩,
   ⟨"LD_B_VX", 0xF033, 0xF0FF⟩, ⟨"LD_MEM_VX", 0xF055, 0xF0FF⟩, ⟨"LD_VX_MEM", 0xF065, 0xF0FF⟩]

/-- The complete map of R94: 34 rows. -/
def opcodeTable : List OpcodeRow := opcodeRowsLow ++ opcodeRowsMid ++ opcodeRowsHigh

end Sys2Proof
end

