-- ==== Sys2Proof/Machine/State.lean ====
section
/-! DEFINITION. The state of the machine as plain data (10_state.md R20 to R33), its reset values (R37), and the reasons a step could stop. -/

namespace Sys2Proof.Machine

/-- The cause field of the fault latch (10_state.md R33, 60_exceptions.md R210). -/
inductive FaultCause where
  /-- Code 0: no fault, the machine runs. -/
  | none
  /-- Code 1, DECODE_ERROR (R211). -/
  | decodeError
  /-- Code 2, STACK_UNDERFLOW (R212). -/
  | stackUnderflow
  /-- Code 3, STACK_OVERFLOW (R213). -/
  | stackOverflow
deriving DecidableEq, Repr

/-- The fault latch FAULT (R33): the cause, the address of the faulting instruction, and its word. -/
structure FaultLatch where
  cause : FaultCause
  fpc : Word
  fop : Word
deriving DecidableEq, Repr

/-- What the host hands one step (10_state.md R30, R31, 40_cycle_and_dispatch.md R128): bit k of `keys` is KEY[k]. -/
structure StepInput where
  keys : BitVec 16
  rnd : Byte
deriving DecidableEq, Repr

/-- Memory as the list of cells that differ from the reset contents, addresses strictly rising (log 6). -/
abbrev Memory := List Host.Cell

/-- FB[y][x]: 32 rows of 64 pixels, `true` for on (10_state.md R29). -/
abbrev Framebuffer := Vector (Vector Bool 64) 32

/-- All pixels off (R37, R140). -/
def Framebuffer.clear : Framebuffer := Vector.replicate 32 (Vector.replicate 64 false)

/-- No fault recorded (R37). -/
def FaultLatch.clear : FaultLatch := { cause := .none, fpc := 0, fop := 0 }

/-- Everything the spec gives the machine, then the three fields of the model's own (INVENTORY.md, State). -/
structure State where
  /-- V[0] to V[15]; V[15] is VF, the flag register (R20, R21). -/
  v : Vector Byte 16
  /-- The index register I (R22). -/
  i : Word
  /-- The program counter (R23). Inside a meaning it is already advanced past the instruction (R124). -/
  pc : Word
  /-- The number of return addresses on the stack, 0 to 16 (R25, log 7). -/
  sp : Fin 17
  /-- STACK[0] to STACK[15] (R24). -/
  stack : Vector Word 16
  /-- The delay timer DT (R26). -/
  dt : Byte
  /-- The sound timer ST (R27). -/
  st : Byte
  /-- The 4096 bytes MEM (R28, 20_memory.md R60). -/
  mem : Memory
  /-- The framebuffer FB (R29). -/
  fb : Framebuffer
  /-- The fault latch FAULT (R33). -/
  fault : FaultLatch
  /-- MODEL: the OPEN parameters FONT_BASE and FONT_DATA (00_scope.md R7), which no step writes (log 4). -/
  font : Config.Font
  /-- MODEL: the host's inputs of the coming steps, the next one first (log 2). -/
  inputs : List StepInput
  /-- MODEL: the number of completed steps, the argument of the free inputs once `inputs` is used up (log 2). -/
  inputIndex : Nat
deriving DecidableEq, Repr

/-- The reasons a step could end in `fault`: NONE. The three faults of the spec (60_exceptions.md R210) are taken as
R218 describes them, a next state with the latch written, and R231 says that nothing else faults. With no constructor the
type says so by itself: no step and no meaning can answer `fault` (log 1). Safe: nothing is left out. -/
inductive Fault where
deriving DecidableEq, Repr

/-- The reasons for a refusal. -/
inductive Refusal where
  /-- Raised by an arm of `exec` whose instruction has no meaning yet, with its mnemonic in spec/opcode_table.json.
  No arm raises it: every row has its meaning. Safe: a refused instruction proves nothing. -/
  | notModelled (mnemonic : String)
deriving DecidableEq, Repr

/-- The machine right after reset, for any value of the OPEN parameters (10_state.md R37, 70_reset_and_hazards.md R240). -/
def State.resetWith (font : Config.Font) : State :=
  { v := Vector.replicate 16 0
    i := 0
    pc := BitVec.ofNat 16 Config.loadBase
    sp := 0
    stack := Vector.replicate 16 0
    dt := 0
    st := 0
    mem := []
    fb := Framebuffer.clear
    fault := FaultLatch.clear
    font := font
    inputs := []
    inputIndex := 0 }

/-- The machine right after reset with the spec's default font (R37; the font is PRESUMED, log 4). -/
def State.reset : State := State.resetWith Config.defaultFont

end Sys2Proof.Machine
end

