-- ==== Sys2Proof/Machine/Ops.lean ====
section
/-! DEFINITION. The named operations over memory, registers, the call stack, the timers and the host's inputs, the fetch,
and taking a fault: everything the meanings share. -/

namespace Sys2Proof.Machine

/-! ## Memory (20_memory.md) -/

/-- What an address that the list does not mention reads as: the reset contents, FONT_DATA at FONT_BASE and zero elsewhere (R37, R65, R66). -/
def resetByte (font : Config.Font) (a : Nat) : Byte :=
  if h : font.base.val ≤ a ∧ a < font.base.val + 80 then font.data[a - font.base.val] else 0

/-- The canonical form: addresses strictly rising and inside the 4096 bytes, no cell equal to the reset contents (log 6). -/
abbrev Memory.wf (font : Config.Font) (m : Memory) : Prop :=
  m.Pairwise (fun c d => c.1 < d.1) ∧ ∀ c ∈ m, c.1 < Config.memSize ∧ c.2 ≠ resetByte font c.1

/-- The byte a memory holds at an address below 4096. -/
def memGet (font : Config.Font) : Memory → Nat → Byte
  | [], a => resetByte font a
  | c :: rest, a => if c.1 = a then c.2 else memGet font rest a

/-- The list with the cell at `a` set, keeping the order. -/
def insertCell (a : Nat) (b : Byte) : Memory → Memory
  | [] => [(a, b)]
  | c :: rest =>
    if a < c.1 then (a, b) :: c :: rest
    else if c.1 = a then (a, b) :: rest
    else c :: insertCell a b rest

/-- The list without any cell at `a`. -/
def eraseCell (a : Nat) (m : Memory) : Memory := m.filter (fun c => c.1 != a)

/-- The memory after a byte store at an address below 4096, in canonical form. -/
def memSet (font : Config.Font) (m : Memory) (a : Nat) (b : Byte) : Memory :=
  if b = resetByte font a then eraseCell a m else insertCell a b m

/-- Every address is first reduced to its low 12 bits (R61, D4). -/
def maskAddr (a : Word) : Nat := a.toNat % Config.memSize

/-- `MemRead(a, 1)` (00_scope.md R10, R61). Reads have no side effect (R67). -/
def memRead (a : Word) (s : State) : Byte := memGet s.font s.mem (maskAddr a)

/-- `MemWrite(a, 1, b)` (00_scope.md R10, R61). No address is protected (R68). -/
def memWrite (a : Word) (b : Byte) (s : State) : State :=
  { s with mem := memSet s.font s.mem (maskAddr a) b }

/-- Byte stores at `a`, `a + 1`, ... in increasing order, each address masked for itself (R63, R70). -/
def storeBytes (a : Word) : List Byte → State → State
  | [], s => s
  | b :: bs, s => storeBytes (a + 1) bs (memWrite a b s)

/-! ## Registers (10_state.md R20 to R23) -/

/-- `V[x]`. -/
def getV (x : RegIdx) (s : State) : Byte := s.v[x]

/-- `V[x] <- b`. -/
def setV (x : RegIdx) (b : Byte) (s : State) : State := { s with v := s.v.set x b }

/-- `I <- a`: all 16 bits, not masked (R22, D27). -/
def setI (a : Word) (s : State) : State := { s with i := a }

/-- `pc <- a`: all 16 bits, not masked (R23, D27). -/
def setPc (a : Word) (s : State) : State := { s with pc := a }

/-- A conditional skip: `pc <- pc + 2` on the already advanced pc (42_control_flow.md R159). -/
def skipIf (b : Bool) (s : State) : State := if b then setPc (s.pc + 2) s else s

/-! ## The call-stack controller (42_control_flow.md R158) -/

/-- `push(a)`; `none` where R158 raises StackOverflow, before any change. -/
def push (a : Word) (s : State) : Option State :=
  if h : s.sp.val < 16 then
    some { s with stack := s.stack.set s.sp.val a, sp := ⟨s.sp.val + 1, Nat.succ_lt_succ h⟩ }
  else none

/-- `pop()`; `none` where R158 raises StackUnderflow, before any change. The popped entry is not erased. -/
def pop (s : State) : Option (Word × State) :=
  if h : 0 < s.sp.val then
    have hsp := s.sp.isLt
    some (s.stack[s.sp.val - 1], { s with sp := ⟨s.sp.val - 1, by omega⟩ })
  else none

/-! ## Faults (60_exceptions.md R218 to R220) -/

/-- The codes of 60_exceptions.md R210 (D2). -/
def causeCode : FaultCause → BitVec 2
  | .none => 0
  | .decodeError => 1
  | .stackUnderflow => 2
  | .stackOverflow => 3

/-- `FAULT.cause ≠ 0`: the machine is halted (R33, R219). -/
abbrev halted (s : State) : Prop := s.fault.cause ≠ .none

/-- Taking a fault (R218): the state before the step with only FAULT written; the pc is the faulting instruction's own address `a`.
There is no handler, no vector and no mode. The way back is the host's reset alone (R220; `hostReset`). -/
def takeFault (cause : FaultCause) (a w : Word) (s : State) : State :=
  { s with pc := a, fault := { cause := cause, fpc := a, fop := w } }

/-- A meaning's `raise` (00_scope.md R10): the pc it sees is already advanced, so the instruction's address is `pc - 2`, and the
advance is undone (R126, R218). The meaning calls it before it changes anything. -/
def raise (cause : FaultCause) (i : Instr) (s : State) : State := takeFault cause (s.pc - 2) (encode i) s

/-! ## The host's inputs (10_state.md R30, R31; log 2) -/

/-- The key state of this step: bit k is KEY[k]. Free where the host has named none. -/
def keysNow (s : State) : BitVec 16 :=
  match s.inputs with
  | [] => Config.freeKeys s.inputIndex
  | now :: _ => now.keys

/-- The random byte of this step. Free where the host has named none. -/
def rndNow (s : State) : Byte :=
  match s.inputs with
  | [] => Config.freeRnd s.inputIndex
  | now :: _ => now.rnd

/-- A completed step has used its inputs; the next one gets its own (R128). -/
def advanceInputs (s : State) : State := { s with inputs := s.inputs.tail, inputIndex := s.inputIndex + 1 }

/-! ## The phases of a step (40_cycle_and_dispatch.md R120 to R127) -/

/-- Phase 1: two consecutive bytes at the pc, the first the high byte (R122, 20_memory.md R62). It cannot fault. -/
def fetch (s : State) : Word := wordOfBytes (memRead s.pc s) (memRead (s.pc + 1) s)

/-- Phase 2: `pc <- pc + 2` modulo 65536, before execute (R124). -/
def advancePc (s : State) : State := setPc (s.pc + 2) s

/-- A counter that stops at zero (10_state.md R26). -/
def decay (t : Byte) : Byte := if t = 0 then 0 else t - 1

/-- Phase 5: both timers, independently (R127). -/
def decayTimers (s : State) : State := { s with dt := decay s.dt, st := decay s.st }

/-- What follows execute: timer decay and the end of this step's inputs, unless execute raised a fault (R126, R127, D17). -/
def finish (s : State) : State := if halted s then s else advanceInputs (decayTimers s)

/-- `finish` on the outcome of a meaning. -/
def finishOutcome : Host.Outcome State Fault Refusal → Host.Outcome State Fault Refusal
  | .next s => .next (finish s)
  | .fault r => .fault r
  | .refused r => .refused r

end Sys2Proof.Machine
end

