-- ==== Sys2Proof/Machine/Flags.lean ====
section
/-! DEFINITION. Every flag computation of the instruction set (43_alu.md R183, 41_display.md R143), and the one order in which VF is written. -/

namespace Sys2Proof.Machine

/-- A flag is exactly 0x00 or 0x01 (R183). -/
def flagByte (b : Bool) : Byte := if b then 1 else 0

/-- The carry of 8xy4: the unsigned sum exceeds 255 (R176). -/
def carryOut (a b : Byte) : Bool := decide (a.toNat + b.toNat > 255)

/-- The flag of 8xy5 and 8xy7: strict unsigned greater-than, 0 on equal operands (R177, R179, C3). -/
def greater (a b : Byte) : Bool := decide (a.toNat > b.toNat)

/-- The bit 8xy6 shifts out: bit 0 (R178). -/
def lowBit (a : Byte) : Bool := a.getLsbD 0

/-- The bit 8xyE shifts out: bit 7 (R180). -/
def highBit (a : Byte) : Bool := a.getLsbD 7

/-- Vx is written first and VF last, so with x = 0xF the flag is what remains (R181, D7). -/
def setVThenFlag (x : RegIdx) (result : Byte) (flag : Bool) (s : State) : State :=
  setV regF (flagByte flag) (setV x result s)

end Sys2Proof.Machine
end

