-- ==== Sys2Proof/Machine/Alu.lean ====
section
/-! DEFINITION. Register loads, arithmetic, logic and shifts (43_alu.md). Operands are read before any write (R181); all arithmetic is modulo 256 (R182). -/

namespace Sys2Proof.Machine

/-- 6xkk, LD Vx, kk (R170). -/
def execLdVxKk (x : RegIdx) (kk : Byte) (s : State) : Host.Outcome State Fault Refusal := .next (setV x kk s)

/-- 7xkk, ADD Vx, kk: no flag (R171). -/
def execAddVxKk (x : RegIdx) (kk : Byte) (s : State) : Host.Outcome State Fault Refusal :=
  .next (setV x (getV x s + kk) s)

/-- 8xy0, LD Vx, Vy (R172). -/
def execLdVxVy (x y : RegIdx) (s : State) : Host.Outcome State Fault Refusal := .next (setV x (getV y s) s)

/-- 8xy1, OR Vx, Vy: VF is not touched (R173). -/
def execOrVxVy (x y : RegIdx) (s : State) : Host.Outcome State Fault Refusal :=
  .next (setV x (getV x s ||| getV y s) s)

/-- 8xy2, AND Vx, Vy: VF is not touched (R174). -/
def execAndVxVy (x y : RegIdx) (s : State) : Host.Outcome State Fault Refusal :=
  .next (setV x (getV x s &&& getV y s) s)

/-- 8xy3, XOR Vx, Vy: VF is not touched (R175). -/
def execXorVxVy (x y : RegIdx) (s : State) : Host.Outcome State Fault Refusal :=
  .next (setV x (getV x s ^^^ getV y s) s)

/-- 8xy4, ADD Vx, Vy: VF is the carry (R176). -/
def execAddVxVy (x y : RegIdx) (s : State) : Host.Outcome State Fault Refusal :=
  .next (setVThenFlag x (getV x s + getV y s) (carryOut (getV x s) (getV y s)) s)

/-- 8xy5, SUB Vx, Vy: VF is Vx > Vy before the subtraction (R177). -/
def execSubVxVy (x y : RegIdx) (s : State) : Host.Outcome State Fault Refusal :=
  .next (setVThenFlag x (getV x s - getV y s) (greater (getV x s) (getV y s)) s)

/-- 8xy6, SHR Vx: a logical shift, VF is the old bit 0; Vy is ignored (R178, R99). -/
def execShrVx (x _y : RegIdx) (s : State) : Host.Outcome State Fault Refusal :=
  .next (setVThenFlag x (getV x s >>> 1) (lowBit (getV x s)) s)

/-- 8xy7, SUBN Vx, Vy: VF is Vy > Vx before the subtraction (R179). -/
def execSubnVxVy (x y : RegIdx) (s : State) : Host.Outcome State Fault Refusal :=
  .next (setVThenFlag x (getV y s - getV x s) (greater (getV y s) (getV x s)) s)

/-- 8xyE, SHL Vx: VF is the old bit 7; Vy is ignored (R180, R99). -/
def execShlVx (x _y : RegIdx) (s : State) : Host.Outcome State Fault Refusal :=
  .next (setVThenFlag x (getV x s <<< 1) (highBit (getV x s)) s)

end Sys2Proof.Machine
end

