-- ==== Sys2Proof/Machine/Operands.lean ====
section
/-! DEFINITION. Operand forms: the addresses, key indices, glyph addresses, digits and pixel coordinates an instruction computes from its operands. -/

namespace Sys2Proof.Machine

/-- The only addressing mode (44_index_memory.md R196): byte k of an access is at `I + k`; the mask is `memRead`'s and `memWrite`'s. -/
def effAddr (s : State) (k : Nat) : Word := s.i + BitVec.ofNat 16 k

/-- The address of glyph `b`: `FONT_BASE + 5 * zext_16(b)` on the whole byte (R192, D9). -/
def glyphAddr (font : Config.Font) (b : Byte) : Word := BitVec.ofNat 16 font.base.val + 5 * zextByte b

/-- The hundreds, tens and ones of a byte, each a whole byte (R193). -/
def bcdDigits (b : Byte) : List Byte :=
  [BitVec.ofNat 8 (b.toNat / 100), BitVec.ofNat 8 (b.toNat / 10 % 10), BitVec.ofNat 8 (b.toNat % 10)]

/-- V0 to Vx, in order (R194). -/
def regBlock (x : RegIdx) (s : State) : List Byte := s.v.toList.take (x.val + 1)

/-- `KEY[b & 0xF]`: the low nibble selects the key (45_random_keypad_timers.md R207, D10). -/
def keyDown (b : Byte) (s : State) : Bool := (keysNow s).getLsbD (b.toNat % 16)

/-- The least k with KEY[k] down, if any key is down (R204). -/
def lowestKey (keys : BitVec 16) : Option (Fin 16) := (List.finRange 16).find? (fun k => keys.getLsbD k.val)

/-- `x0 = V[x] mod 64` (41_display.md R141). -/
def originColumn (b : Byte) : Fin 64 := Fin.ofNat 64 b.toNat

/-- `y0 = V[y] mod 32` (R141, C2). -/
def originRow (b : Byte) : Fin 32 := Fin.ofNat 32 b.toNat

/-- `px = (x0 + c) mod 64` (R142, D5). -/
def pixelColumn (x0 : Fin 64) (c : Nat) : Fin 64 := Fin.ofNat 64 (x0.val + c)

/-- `py = (y0 + r) mod 32` (R142, D5). -/
def pixelRow (y0 : Fin 32) (r : Nat) : Fin 32 := Fin.ofNat 32 (y0.val + r)

/-- Sprite bit c of a row byte, the most significant first: `b[7 - c]` (R141). -/
def spriteBit (b : Byte) (c : Nat) : Bool := b.getLsbD (7 - c)

end Sys2Proof.Machine
end

