-- ==== Sys2Proof/Machine/ControlFlow.lean ====
section
/-! DEFINITION. Control transfer and the call stack's instructions (42_control_flow.md). The pc a meaning sees is already advanced (R124). -/

namespace Sys2Proof.Machine

/-- 00EE, RET (R150); StackUnderflow when SP = 0 (60_exceptions.md R212). -/
def execRet (s : State) : Host.Outcome State Fault Refusal :=
  .next (match pop s with
    | some (a, t) => setPc a t
    | none => raise .stackUnderflow .ret s)

/-- 1nnn, JP nnn (R151). -/
def execJp (nnn : Addr12) (s : State) : Host.Outcome State Fault Refusal := .next (setPc (zextAddr nnn) s)

/-- 2nnn, CALL nnn (R152): the advanced pc is pushed; StackOverflow when SP = 16 (60_exceptions.md R213). -/
def execCall (nnn : Addr12) (s : State) : Host.Outcome State Fault Refusal :=
  .next (match push s.pc s with
    | some t => setPc (zextAddr nnn) t
    | none => raise .stackOverflow (.call nnn) s)

/-- 3xkk, SE Vx, kk (R153). -/
def execSeVxKk (x : RegIdx) (kk : Byte) (s : State) : Host.Outcome State Fault Refusal :=
  .next (skipIf (getV x s == kk) s)

/-- 4xkk, SNE Vx, kk: skips on inequality (R154, C1). -/
def execSneVxKk (x : RegIdx) (kk : Byte) (s : State) : Host.Outcome State Fault Refusal :=
  .next (skipIf (getV x s != kk) s)

/-- 5xy0, SE Vx, Vy (R155). -/
def execSeVxVy (x y : RegIdx) (s : State) : Host.Outcome State Fault Refusal :=
  .next (skipIf (getV x s == getV y s) s)

/-- 9xy0, SNE Vx, Vy (R156). -/
def execSneVxVy (x y : RegIdx) (s : State) : Host.Outcome State Fault Refusal :=
  .next (skipIf (getV x s != getV y s) s)

/-- Bnnn, JP V0, nnn: the addend is always V0 and the sum keeps 16 bits (R157, R93). -/
def execJpV0Nnn (nnn : Addr12) (s : State) : Host.Outcome State Fault Refusal :=
  .next (setPc (zextByte (getV 0 s) + zextAddr nnn) s)

end Sys2Proof.Machine
end

