-- ==== Sys2Proof/Machine/Display.lean ====
section
/-! DEFINITION. The display instructions, the blitter and its collision detector (41_display.md). -/

namespace Sys2Proof.Machine

/-- `FB[py][px]`. -/
def getPixel (fb : Framebuffer) (px : Fin 64) (py : Fin 32) : Bool := fb[py][px]

/-- `FB[py][px] <- FB[py][px] XOR 1`. -/
def flipPixel (fb : Framebuffer) (px : Fin 64) (py : Fin 32) : Framebuffer :=
  fb.set py (fb[py].set px (!fb[py][px]))

/-- One sprite bit: a set bit XORs its pixel and collides if the pixel was on; a clear bit does nothing (R141). -/
def drawBit (px : Fin 64) (py : Fin 32) (bit : Bool) (acc : Framebuffer × Bool) : Framebuffer × Bool :=
  if bit then (flipPixel acc.1 px py, acc.2 || getPixel acc.1 px py) else acc

/-- The first `count` bits of a row, in increasing c. -/
def drawBits (x0 : Fin 64) (py : Fin 32) (b : Byte) : (count : Nat) → Framebuffer × Bool → Framebuffer × Bool
  | 0, acc => acc
  | c + 1, acc => drawBit (pixelColumn x0 c) py (spriteBit b c) (drawBits x0 py b c acc)

/-- The first `count` rows of the sprite at `I`, in increasing r (R141). -/
def drawRows (x0 : Fin 64) (y0 : Fin 32) (s : State) : (count : Nat) → Framebuffer × Bool → Framebuffer × Bool
  | 0, acc => acc
  | r + 1, acc => drawBits x0 (pixelRow y0 r) (memRead (effAddr s r) s) 8 (drawRows x0 y0 s r acc)

/-- The framebuffer and the collision bit after an n-row sprite. The bit starts from 0 at every draw (R143). -/
def drawSprite (x0 : Fin 64) (y0 : Fin 32) (n : Nat) (s : State) : Framebuffer × Bool :=
  drawRows x0 y0 s n (s.fb, false)

/-- 00E0, CLS (R140). -/
def execCls (s : State) : Host.Outcome State Fault Refusal := .next { s with fb := Framebuffer.clear }

/-- Dxyn, DRW Vx, Vy, n (R141): origin read first, pixels updated, VF written last, also when n = 0 (D6, D29). -/
def execDrwVxVyN (x y : RegIdx) (n : Fin 16) (s : State) : Host.Outcome State Fault Refusal :=
  let drawn := drawSprite (originColumn (getV x s)) (originRow (getV y s)) n.val s
  .next (setV regF (flagByte drawn.2) { s with fb := drawn.1 })

end Sys2Proof.Machine
end

