-- ==== Sys2Proof/Machine/IndexMemory.lean ====
section
/-! DEFINITION. The index register, loads and stores (44_index_memory.md). No load or store changes I (R196, D25). -/

namespace Sys2Proof.Machine

/-- Annn, LD I, nnn (R190). -/
def execLdINnn (nnn : Addr12) (s : State) : Host.Outcome State Fault Refusal := .next (setI (zextAddr nnn) s)

/-- Fx1E, ADD I, Vx: 16 bits, no flag (R191). -/
def execAddIVx (x : RegIdx) (s : State) : Host.Outcome State Fault Refusal :=
  .next (setI (s.i + zextByte (getV x s)) s)

/-- Fx29, LD F, Vx (R192): an address only, memory is not read. -/
def execLdFVx (x : RegIdx) (s : State) : Host.Outcome State Fault Refusal :=
  .next (setI (glyphAddr s.font (getV x s)) s)

/-- Fx33, LD B, Vx: three bytes at I, I + 1, I + 2 (R193). -/
def execLdBVx (x : RegIdx) (s : State) : Host.Outcome State Fault Refusal :=
  .next (storeBytes (effAddr s 0) (bcdDigits (getV x s)) s)

/-- Fx55, LD [I], Vx: x + 1 bytes, registers read before the first write (R194, R197). -/
def execLdMemVx (x : RegIdx) (s : State) : Host.Outcome State Fault Refusal :=
  .next (storeBytes (effAddr s 0) (regBlock x s) s)

/-- `V[k] <- MemRead(I + k, 1)` for k from 0 below `count`, in increasing order (R195, R197). -/
def loadRegs (s : State) : (count : Nat) → State
  | 0 => s
  | k + 1 => setV (Fin.ofNat 16 k) (memRead (effAddr s k) s) (loadRegs s k)

/-- Fx65, LD Vx, [I]: x + 1 registers (R195). -/
def execLdVxMem (x : RegIdx) (s : State) : Host.Outcome State Fault Refusal := .next (loadRegs s (x.val + 1))

end Sys2Proof.Machine
end

