-- ==== Sys2Proof/Machine/RandomKeypadTimers.lean ====
section
/-! DEFINITION. The random byte, the keypad and the timers (45_random_keypad_timers.md). The decay of phase 5 follows each (R208). -/

namespace Sys2Proof.Machine

/-- Cxkk, RND Vx, kk: this step's random byte, masked (R200). -/
def execRndVxKk (x : RegIdx) (kk : Byte) (s : State) : Host.Outcome State Fault Refusal :=
  .next (setV x (rndNow s &&& kk) s)

/-- Ex9E, SKP Vx (R201). -/
def execSkpVx (x : RegIdx) (s : State) : Host.Outcome State Fault Refusal :=
  .next (skipIf (keyDown (getV x s) s) s)

/-- ExA1, SKNP Vx (R202). -/
def execSknpVx (x : RegIdx) (s : State) : Host.Outcome State Fault Refusal :=
  .next (skipIf (!keyDown (getV x s) s) s)

/-- Fx07, LD Vx, DT: DT before this step's decay (R203). -/
def execLdVxDt (x : RegIdx) (s : State) : Host.Outcome State Fault Refusal := .next (setV x s.dt s)

/-- Fx0A, LD Vx, K: with no key down the step ends back at this instruction (R204, C14). -/
def execLdVxK (x : RegIdx) (s : State) : Host.Outcome State Fault Refusal :=
  .next (match lowestKey (keysNow s) with
    | some k => setV x (BitVec.ofNat 8 k.val) s
    | none => setPc (s.pc - 2) s)

/-- Fx15, LD DT, Vx (R205). -/
def execLdDtVx (x : RegIdx) (s : State) : Host.Outcome State Fault Refusal := .next { s with dt := getV x s }

/-- Fx18, LD ST, Vx (R206). -/
def execLdStVx (x : RegIdx) (s : State) : Host.Outcome State Fault Refusal := .next { s with st := getV x s }

end Sys2Proof.Machine
end

