-- ==== Sys2Proof/Machine/Step.lean ====
section
/-! DEFINITION. The core's one operation, `step` (40_cycle_and_dispatch.md R120, R129), and the placing of one instruction where it fetches. -/

namespace Sys2Proof.Machine

/-- One step (R129): halted check, fetch, decode, advance, execute, timer decay. A halted machine changes nothing (R121);
an illegal word raises DECODE_ERROR with the pc not advanced (R123). The step's two inputs stand in the state (R128, log 2). -/
def step (s : State) : Host.Outcome State Fault Refusal :=
  if halted s then .next s
  else match decodeWord (fetch s) with
    | .ok i => finishOutcome (exec i (advancePc s))
    | .error _ => .next (takeFault .decodeError s.pc (fetch s) s)

/-- `s` with one instruction word stored where `step` fetches next, high byte first (R62), and the fault latch clear, since a
halted machine fetches nothing (R121). It stands for the host's `load`, by which a program comes to run (R242, log 3). -/
def State.withFetchWord (s : State) (nbits w : Nat) : State :=
  let word : Word := BitVec.ofNat 16 (w % 2 ^ nbits)
  storeBytes s.pc [(bytesOfWord word).1, (bytesOfWord word).2] { s with fault := FaultLatch.clear }

end Sys2Proof.Machine
end

