-- ==== Sys2Proof/Machine/HostPort.lean ====
section
/-! DEFINITION. What the host may do between steps (10_state.md R39, R40): reset, load a program image, and call a step with a key state and a random byte. Reading any state has no effect (R38): State is plain data. -/

namespace Sys2Proof.Machine

/-- `reset()` (70_reset_and_hazards.md R240): every item of state takes its value of R37, memory included, halted or not. It is the
only way out of a fault (60_exceptions.md R220). The font is the machine's own and the inputs are the host's, so both stay. -/
def hostReset (s : State) : State :=
  { State.resetWith s.font with inputs := s.inputs, inputIndex := s.inputIndex }

/-- The result of `load` (20_memory.md R73, 60_exceptions.md R215). -/
inductive LoadStatus where
  /-- The image was copied. -/
  | ok
  /-- The image is longer than 3584 bytes; nothing was copied. -/
  | tooLarge
deriving DecidableEq, Repr

/-- `load(bytes)` (R73): at most 3584 bytes, copied to 0x200 and up; otherwise nothing changes. -/
def hostLoad (bytes : List Byte) (s : State) : LoadStatus × State :=
  if bytes.length ≤ Config.maxRom then (.ok, storeBytes (BitVec.ofNat 16 Config.loadBase) bytes s) else (.tooLarge, s)

/-- The host hands the next step its key state and its random byte (R30, R31, R128). -/
def supplyInput (keys : BitVec 16) (rnd : Byte) (s : State) : State :=
  { s with inputs := [{ keys := keys, rnd := rnd }] }

/-- `step(keys, rnd)` as R40 and R129 write it. -/
def hostStep (keys : BitVec 16) (rnd : Byte) (s : State) : Host.Outcome State Fault Refusal :=
  step (supplyInput keys rnd s)

end Sys2Proof.Machine
end

