-- ==== Sys2Proof/Safety.lean ====
section
/-! DEFINITION. What counts as a safe state, and the words the statements are written in: the parts of a state, what an instruction may
write (10_state.md R36), the invariant of every reachable state (R35), agreement modulo 4096 (R22, R23), and the sprite's pixels (41_display.md R141). -/

namespace Sys2Proof.Machine

/-- A safe state has no fault recorded; a halted state is a fault state and never a successful end of a run (60_exceptions.md R219). -/
abbrev Safe (s : State) : Prop := ¬ halted s

/-- Safe for `k` steps: after each number of steps up to `k` the machine stands in a safe state. -/
def SafeFor (k : Nat) (s : State) : Prop := ∀ j ≤ k, ∃ t, core.run j s = .next t ∧ Safe t

/-! ## Parts of a state and frames -/

/-- The parts of a state that a frame names. -/
inductive Part where
  | regs | index | pc | sp | stack | delay | sound | memory | framebuffer | latch | font | hostInputs
deriving DecidableEq, Repr

/-- Two states agree on a part. Memory is compared by reading every address, the framebuffer pixel by pixel. -/
def Part.Same : Part → State → State → Prop
  | .regs, s, t => ∀ j, getV j t = getV j s
  | .index, s, t => t.i = s.i
  | .pc, s, t => t.pc = s.pc
  | .sp, s, t => t.sp = s.sp
  | .stack, s, t => ∀ k : Fin 16, t.stack[k] = s.stack[k]
  | .delay, s, t => t.dt = s.dt
  | .sound, s, t => t.st = s.st
  | .memory, s, t => ∀ a, memRead a t = memRead a s
  | .framebuffer, s, t => ∀ px py, getPixel t.fb px py = getPixel s.fb px py
  | .latch, s, t => t.fault = s.fault
  | .font, s, t => t.font = s.font
  | .hostInputs, s, t => t.inputs = s.inputs ∧ t.inputIndex = s.inputIndex

/-- From `s` to `t` nothing changed but, perhaps, the parts listed. -/
def OnlyChanged (parts : List Part) (s t : State) : Prop := ∀ p, p ∉ parts → p.Same s t

/-- Every register but those named by `written` keeps its value. -/
def RegsKeptExcept (written : RegIdx → Bool) (s t : State) : Prop :=
  ∀ j, written j = false → getV j t = getV j s

/-- The V registers an instruction writes: the "writes" column of R36. -/
def writtenRegs : Instr → RegIdx → Bool
  | .ldVxKk x _, j | .addVxKk x _, j | .ldVxVy x _, j | .orVxVy x _, j | .andVxVy x _, j | .xorVxVy x _, j
  | .rndVxKk x _, j | .ldVxDt x, j | .ldVxK x, j => j == x
  | .addVxVy x _, j | .subVxVy x _, j | .shrVx x _, j | .subnVxVy x _, j | .shlVx x _, j => j == x || j == regF
  | .drwVxVyN _ _ _, j => j == regF
  | .ldVxMem x, j => decide (j ≤ x)
  | .cls, _ | .ret, _ | .jp _, _ | .call _, _ | .seVxKk _ _, _ | .sneVxKk _ _, _ | .seVxVy _ _, _ | .sneVxVy _ _, _
  | .ldINnn _, _ | .jpV0Nnn _, _ | .skpVx _, _ | .sknpVx _, _ | .ldDtVx _, _ | .ldStVx _, _ | .addIVx _, _ | .ldFVx _, _
  | .ldBVx _, _ | .ldMemVx _, _ => false

/-- The parts an instruction writes: the "writes" column of R36, and the latch where the instruction can fault (R126). -/
def writtenParts : Instr → List Part
  | .cls => [.framebuffer]
  | .ret => [.sp, .pc, .latch]
  | .call _ => [.stack, .sp, .pc, .latch]
  | .jp _ | .seVxKk _ _ | .sneVxKk _ _ | .seVxVy _ _ | .sneVxVy _ _ | .jpV0Nnn _ | .skpVx _ | .sknpVx _ => [.pc]
  | .ldVxKk _ _ | .addVxKk _ _ | .ldVxVy _ _ | .orVxVy _ _ | .andVxVy _ _ | .xorVxVy _ _ | .addVxVy _ _ | .subVxVy _ _
  | .shrVx _ _ | .subnVxVy _ _ | .shlVx _ _ | .rndVxKk _ _ | .ldVxDt _ | .ldVxMem _ => [.regs]
  | .ldINnn _ | .addIVx _ | .ldFVx _ => [.index]
  | .drwVxVyN _ _ _ => [.regs, .framebuffer]
  | .ldVxK _ => [.regs, .pc]
  | .ldDtVx _ => [.delay]
  | .ldStVx _ => [.sound]
  | .ldBVx _ | .ldMemVx _ => [.memory]

/-- How many bytes at I an instruction stores: the memory entries of the "writes" column of R36. -/
def writtenBytes : Instr → Nat
  | .ldBVx _ => 3
  | .ldMemVx x => x.val + 1
  | .cls | .ret | .jp _ | .call _ | .seVxKk _ _ | .sneVxKk _ _ | .seVxVy _ _ | .sneVxVy _ _ | .jpV0Nnn _
  | .ldVxKk _ _ | .addVxKk _ _ | .ldVxVy _ _ | .orVxVy _ _ | .andVxVy _ _ | .xorVxVy _ _ | .addVxVy _ _ | .subVxVy _ _
  | .shrVx _ _ | .subnVxVy _ _ | .shlVx _ _ | .ldINnn _ | .addIVx _ | .ldFVx _ | .ldVxMem _ | .rndVxKk _ _
  | .drwVxVyN _ _ _ | .skpVx _ | .sknpVx _ | .ldVxDt _ | .ldVxK _ | .ldDtVx _ | .ldStVx _ => 0

/-! ## The invariant of every reachable state -/

/-- The latch tells the truth: with no fault its other fields are zero (R33, R35 d); with one, `fpc` is the address where the machine
stands, and `fop` is a word that raises that cause in this state (60_exceptions.md R211 to R213, R218). -/
def LatchTruthful (s : State) : Prop :=
  match s.fault.cause with
  | .none => s.fault.fpc = 0 ∧ s.fault.fop = 0
  | .decodeError => s.fault.fpc = s.pc ∧ wordWellFormed s.fault.fop = false
  | .stackUnderflow => s.fault.fpc = s.pc ∧ s.fault.fop.toNat = 0x00EE ∧ s.sp.val = 0
  | .stackOverflow => s.fault.fpc = s.pc ∧ s.fault.fop.toNat / 4096 = 2 ∧ s.sp.val = 16

/-- The invariant: memory in its canonical form, and a truthful latch. The ranges of R35 a to c are the fields' types. -/
def Inv (s : State) : Prop := Memory.wf s.font s.mem ∧ LatchTruthful s

/-! ## Agreement modulo 4096 -/

/-- Two words with the same low 12 bits. -/
def SameLow12 (a b : Word) : Prop := a.toNat % 4096 = b.toNat % 4096

/-- Two states that a program cannot tell apart (R22, R23): equal, but that I, pc, the stack entries and the recorded fault address
need agree only modulo 4096. -/
def AgreeLow12 (s t : State) : Prop :=
  SameLow12 s.i t.i ∧ SameLow12 s.pc t.pc ∧ (∀ k : Fin 16, SameLow12 s.stack[k] t.stack[k]) ∧
  SameLow12 s.fault.fpc t.fault.fpc ∧ s.fault.cause = t.fault.cause ∧ s.fault.fop = t.fault.fop ∧
  s.v = t.v ∧ s.sp = t.sp ∧ s.dt = t.dt ∧ s.st = t.st ∧ s.mem = t.mem ∧ s.fb = t.fb ∧ s.font = t.font ∧
  s.inputs = t.inputs ∧ s.inputIndex = t.inputIndex

/-! ## Sprites -/

/-- A set bit of the n-row sprite of `Dxyn` falls on pixel (px, py), in the words of R141: row byte r at I + r, most significant bit first,
columns from Vx mod 64 and rows from Vy mod 32, each coordinate wrapping for itself (R142). -/
def SpriteCovers (x y : RegIdx) (n : Nat) (s : State) (px : Fin 64) (py : Fin 32) : Prop :=
  ∃ r < n, ∃ c < 8, (memRead (s.i + BitVec.ofNat 16 r) s).getLsbD (7 - c) = true ∧
    px.val = ((getV x s).toNat % 64 + c) % 64 ∧ py.val = ((getV y s).toNat % 32 + r) % 32

/-- The byte at masked address `a mod 4096`: `MEM[a & 0xFFF]` of 20_memory.md R61. -/
def memCell (s : State) (a : Nat) : Byte := memGet s.font s.mem (a % 4096)

/-- The address `a` is none of the `n` bytes that an access at I reaches (44_index_memory.md R196), all addresses masked. -/
def OutsideBlock (s : State) (n : Nat) (a : Word) : Prop := ∀ k < n, maskAddr a ≠ maskAddr (effAddr s k)

/-! ## Who reads the host's inputs -/

/-- The instructions that read the key state (10_state.md R30). -/
def readsKeys : Instr → Bool
  | .skpVx _ | .sknpVx _ | .ldVxK _ => true
  | _ => false

/-- The one instruction that takes the random byte (10_state.md R31). -/
def readsRnd : Instr → Bool
  | .rndVxKk _ _ => true
  | _ => false

end Sys2Proof.Machine
end

