-- ==== Sys2Proof/Certificates/Slice0/Obligations.lean ====
section
/-! DEFINITION. The statements about the machine, for the provers. Each docstring names the rule of spec/ it formalises, and, where a
clause rests on a decision of the spec's own (D<n>) or of the model's (log <n>), names that. A pc in a statement about `exec` is the
already advanced one (40_cycle_and_dispatch.md R124). -/

open Sys2Proof Sys2Proof.Machine

/-! ## Encoding (30_encoding.md) -/

/-- Decoding the word of any instruction, with every operand at any value, gives that instruction back (R92, R94, R130). -/
def Obligations.DecodeEncodeRoundTrip : Prop := ∀ i : Instr, decodeWord (encode i) = .ok i

/-- A word that decodes is the word of what it decodes to: no bit is dropped, the ignored `y` of 8xy6 and 8xyE included (R91, R99).
That no stray nibble of the families 0, 5 and 9 decodes is the strict reading (D8, log 8). -/
def Obligations.EncodeDecodeRoundTrip : Prop := ∀ (w : Word) (i : Instr), decodeWord w = .ok i → encode i = w

/-- The decoder of R130 and the match and mask table of R94 describe one mapping: a word selects a row exactly when it decodes to an
instruction of that row's mnemonic; no two rows select one word; a word no row selects is illegal (the strict reading of families 0, 5 and 9,
in table and decoder alike, is D8, log 8). -/
def Obligations.DecoderAgreesWithOpcodeTable : Prop :=
  (∀ w, ∀ r ∈ opcodeTable, rowSelects r w = true ↔ ∃ i, decodeWord w = .ok i ∧ mnemonicOf i = r.mnemonic) ∧
  (∀ w, ∀ r ∈ opcodeTable, ∀ q ∈ opcodeTable, rowSelects r w = true → rowSelects q w = true → r = q) ∧
  (∀ w, (∀ r ∈ opcodeTable, rowSelects r w = false) ↔ ∃ e, decodeWord w = .error e)

/-- The illegal words are those R97 lists, family by family, and no others (the strict reading of families 0, 5 and 9 is D8, log 8). -/
def Obligations.IllegalWordsByFamily : Prop :=
  ∀ w : Word, (∃ e, decodeWord w = .error e) ↔
    (w.toNat / 4096 = 0x0 ∧ w.toNat ≠ 0x00E0 ∧ w.toNat ≠ 0x00EE) ∨
    (w.toNat / 4096 = 0x5 ∧ w.toNat % 16 ≠ 0) ∨
    (w.toNat / 4096 = 0x8 ∧ w.toNat % 16 ∈ [0x8, 0x9, 0xA, 0xB, 0xC, 0xD, 0xF]) ∨
    (w.toNat / 4096 = 0x9 ∧ w.toNat % 16 ≠ 0) ∨
    (w.toNat / 4096 = 0xE ∧ w.toNat % 256 ∉ [0x9E, 0xA1]) ∨
    (w.toNat / 4096 = 0xF ∧ w.toNat % 256 ∉ [0x07, 0x0A, 0x15, 0x18, 0x1E, 0x29, 0x33, 0x55, 0x65])

/-- A few words written out from the patterns of R94. -/
def Obligations.SampleWordsDecode : Prop :=
  decodeWord 0x00E0 = .ok .cls ∧ decodeWord 0x220A = .ok (.call 0x20A) ∧ decodeWord 0x71FF = .ok (.addVxKk 1 0xFF) ∧
  decodeWord 0x80F4 = .ok (.addVxVy 0 15) ∧ decodeWord 0xA300 = .ok (.ldINnn 0x300) ∧
  decodeWord 0xD015 = .ok (.drwVxVyN 0 1 5) ∧ decodeWord 0xF30A = .ok (.ldVxK 3) ∧ decodeWord 0xFA29 = .ok (.ldFVx 10)

/-! ## The step (40_cycle_and_dispatch.md, 60_exceptions.md) -/

/-- A machine that runs executes the decoded instruction on the state with the pc advanced by 2, then, unless that raised a fault,
decays both timers once and moves on to the next step's inputs (R120, R124, R126, R127; the inputs' place in the state is log 2). That a
fault is a next state is D1 (log 1); that a faulting step decays no timer and uses no input up is D17 (log 8). -/
def Obligations.StepRunsDecodedInstruction : Prop :=
  ∀ (s t : State) (i : Instr), ¬ halted s → decodeWord (fetch s) = .ok i → exec i { s with pc := s.pc + 2 } = .next t →
    step s = .next (if halted t then t else
      { t with dt := if t.dt = 0 then 0 else t.dt - 1, st := if t.st = 0 then 0 else t.st - 1,
               inputs := t.inputs.tail, inputIndex := t.inputIndex + 1 })

/-- The fetched word: the byte at the masked pc is the high byte, the next one the low byte (20_memory.md R62; that both
addresses are masked to 12 bits is R61, D4, log 8). -/
def Obligations.FetchIsBigEndian : Prop :=
  ∀ s : State, (fetch s).toNat = (memCell s s.pc.toNat).toNat * 256 + (memCell s (s.pc.toNat + 1)).toNat

/-- Halted: a step changes nothing at all, timers and first fault record included (R121, R219; D1). -/
def Obligations.HaltedStepChangesNothing : Prop := ∀ s : State, halted s → step s = .next s

/-- A word that matches no row raises DECODE_ERROR, recording the pc before the advance and the word (60_exceptions.md R211). The latch
is D1 (log 1), the code 1 is D2 (log 8). -/
def Obligations.IllegalWordRaisesDecodeError : Prop :=
  ∀ s : State, ¬ halted s → (∀ r ∈ opcodeTable, rowSelects r (fetch s) = false) →
    ∃ t, step s = .next t ∧ t.fault.cause = .decodeError ∧ causeCode t.fault.cause = 1 ∧
      t.fault.fpc = s.pc ∧ t.fault.fop = fetch s

/-- Faults are precise: a step that halts the machine leaves the state before it with only FAULT written, the record naming the pc
before the advance and the fetched word (R218; the latch and the halt D1, log 1; no timer decay D17, log 8). -/
def Obligations.FaultingStepIsPrecise : Prop :=
  ∀ s t : State, ¬ halted s → step s = .next t → halted t →
    t = { s with fault := t.fault } ∧ t.fault.fpc = s.pc ∧ t.fault.fop = fetch s

/-- Which step faults and how: an illegal word, 00EE with SP = 0, 2nnn with SP = 16, and nothing else (R126, R217, R231), each with its
code, and code 0 where nothing faults (R210). The latch is D1 (log 1), the codes are D2 (log 8), that stack faults are fatal is D3 (log 8),
that 16 and not 15 entries are the capacity is C4, D14 (log 7). -/
def Obligations.StepFaultsExactlyWhen : Prop :=
  ∀ s : State, ¬ halted s → ∃ t, step s = .next t ∧ (t.fault.cause, (causeCode t.fault.cause).toNat) =
    match decodeWord (fetch s) with
    | .error _ => (.decodeError, 1)
    | .ok .ret => if s.sp.val = 0 then (.stackUnderflow, 2) else (.none, 0)
    | .ok (.call _) => if s.sp.val = 16 then (.stackOverflow, 3) else (.none, 0)
    | .ok _ => (.none, 0)

/-- Nothing stalls and nothing is refused: every meaning and every step answers a next state (70_reset_and_hazards.md R249). -/
def Obligations.EveryStepCompletes : Prop :=
  (∀ (i : Instr) (s : State), ∃ t, exec i s = .next t) ∧ ∀ s : State, ∃ t, step s = .next t

/-- Each completed step decays each timer once, whatever the opcode; a timer just set decays in the same step (R127, R208). -/
def Obligations.TimersDecayOncePerCompletedStep : Prop :=
  ∀ (s t : State) (i : Instr), ¬ halted s → decodeWord (fetch s) = .ok i → step s = .next t → ¬ halted t →
    t.dt.toNat = (match i with | .ldDtVx x => (getV x s).toNat | _ => s.dt.toNat) - 1 ∧
    t.st.toNat = (match i with | .ldStVx x => (getV x s).toNat | _ => s.st.toNat) - 1

/-- Every step keeps the invariant: memory in canonical form, and a latch that is clear with zero fields or tells the address, the word
and the condition of its fault (10_state.md R33, R35; 60_exceptions.md R211 to R213, R218). The memory's form is log 6, the latch D1 (log 1),
an overflow at SP = 16 alone D14 (log 7). -/
def Obligations.StepKeepsInvariant : Prop := ∀ s t : State, Inv s → step s = .next t → Inv t

/-- The invariant holds after reset, whatever the font (the font is log 4, the memory's form log 6, the clear latch D1, log 1). -/
def Obligations.ResetMeetsInvariant : Prop := ∀ font : Config.Font, Inv (State.resetWith font)

/-- What the host may do between steps keeps the invariant: reset, load, handing over inputs, and placing an
instruction word (reset is D13, load D22, log 8; the inputs are log 2, the placing of a word log 3). -/
def Obligations.HostOperationsKeepInvariant : Prop :=
  ∀ s : State, Inv s → Inv (hostReset s) ∧ (∀ bytes, Inv (hostLoad bytes s).2) ∧ (∀ keys rnd, Inv (supplyInput keys rnd s)) ∧
    ∀ nbits w, Inv (s.withFetchWord nbits w)

/-- Program-visible behaviour depends only on I mod 4096 and pc mod 4096: states that agree in everything else, and in I, pc, the stack
entries and the recorded fault address modulo 4096, step to states that agree so again (10_state.md R22, R23; D4, D27). -/
def Obligations.BehaviourDependsOnLowTwelveBits : Prop :=
  ∀ s t s' : State, AgreeLow12 s t → step s = .next s' → ∃ t', step t = .next t' ∧ AgreeLow12 s' t'

/-- The access matrix: an instruction changes only what the "writes" column names (10_state.md R36), and the latch where it can fault
(R126). Fx33 writes the three bytes at I, Fx55 the x + 1 bytes at I and no instruction another byte, each address masked (D4, log 8);
2nnn writes the stack entry at SP and no instruction another entry; Fx0A writes Vx when a key is down and the pc when none is. That I
stays in Fx33, Fx55 and Fx65 is D25 (log 8). -/
def Obligations.AccessMatrixIsRespected : Prop :=
  ∀ (i : Instr) (s t : State), exec i s = .next t →
    OnlyChanged (writtenParts i) s t ∧ RegsKeptExcept (writtenRegs i) s t ∧
    (∀ a, OutsideBlock s (writtenBytes i) a → memRead a t = memRead a s) ∧
    (∀ k : Fin 16, (∀ nnn, i = .call nnn → k.val ≠ s.sp.val) → t.stack[k] = s.stack[k]) ∧
    (∀ x, i = .ldVxK x → (keysNow s = 0 → ∀ j, getV j t = getV j s) ∧ (keysNow s ≠ 0 → t.pc = s.pc))

/-- The key state reaches only Ex9E, ExA1 and Fx0A, the random byte only Cxkk: two states that differ in the inputs of this step alone,
and agree in the one the instruction reads, come out alike (R30, R31, R128; that the random byte is an input is D15, the inputs' place in the
state is log 2). -/
def Obligations.InputsReachOnlyTheirReaders : Prop :=
  ∀ (i : Instr) (s : State) (k k' : BitVec 16) (r r' : Byte) (rest : List StepInput),
    (readsKeys i = true → k = k') → (readsRnd i = true → r = r') →
    ∃ t : State, exec i { s with inputs := ⟨k, r⟩ :: rest } = .next { t with inputs := ⟨k, r⟩ :: rest } ∧
      exec i { s with inputs := ⟨k', r'⟩ :: rest } = .next { t with inputs := ⟨k', r'⟩ :: rest }

/-- No instruction reads ST: two states that differ in ST alone come out alike but for ST (10_state.md R27). -/
def Obligations.SoundTimerIsNeverRead : Prop :=
  ∀ (i : Instr) (s : State) (b : Byte),
    ∃ t : State, ∃ c : Byte, exec i s = .next t ∧ exec i { s with st := b } = .next { t with st := c }

/-- The flag table: for every x and y, VF after the five flag-writing instructions is exactly 1 or 0 as the table says, and the six
others leave VF alone unless it is their destination (43_alu.md R183). -/
def Obligations.FlagTable : Prop :=
  (∀ (x y : RegIdx) (s : State), ∃ t1 t2 t3 t4 t5,
    exec (.addVxVy x y) s = .next t1 ∧ exec (.subVxVy x y) s = .next t2 ∧ exec (.shrVx x y) s = .next t3 ∧
    exec (.subnVxVy x y) s = .next t4 ∧ exec (.shlVx x y) s = .next t5 ∧
    getV 15 t1 = (if (getV x s).toNat + (getV y s).toNat > 255 then 1 else 0) ∧
    getV 15 t2 = (if (getV x s).toNat > (getV y s).toNat then 1 else 0) ∧
    getV 15 t3 = (if (getV x s).toNat % 2 = 1 then 1 else 0) ∧
    getV 15 t4 = (if (getV y s).toNat > (getV x s).toNat then 1 else 0) ∧
    getV 15 t5 = (if (getV x s).toNat ≥ 128 then 1 else 0)) ∧
  (∀ (x y : RegIdx) (kk : Byte) (s t : State), x ≠ 15 → ∀ i ∈ [Instr.ldVxKk x kk, .addVxKk x kk, .ldVxVy x y, .orVxVy x y,
    .andVxVy x y, .xorVxVy x y], exec i s = .next t → getV 15 t = getV 15 s)

/-! ## Display (41_display.md) -/

/-- 00E0 turns every pixel off and changes nothing else, VF included; no other word is CLS (R140; the strict reading of
family 0 is D8, log 8). -/
def Obligations.ClearScreen : Prop :=
  (∀ w : Word, decodeWord w = .ok .cls ↔ w = 0x00E0) ∧
  ∀ s : State, ∃ t, exec .cls s = .next t ∧ (∀ px py, getPixel t.fb px py = false) ∧ OnlyChanged [.framebuffer] s t

/-- Dxyn: a pixel is inverted exactly when a set sprite bit falls on it, and VF is 1 exactly when such a pixel was on, else 0; every
other register, I and memory stay (R141, R143; wrapping D5, origin and VF order D6, n = 0 D29, masked rows D4). -/
def Obligations.DrawSprite : Prop :=
  ∀ (x y : RegIdx) (n : Fin 16),
    decodeWord (BitVec.ofNat 16 (0xD000 + 256 * x.val + 16 * y.val + n.val)) = .ok (.drwVxVyN x y n) ∧
    ∀ s : State, ∃ t, exec (.drwVxVyN x y n) s = .next t ∧
      (∀ px py, getPixel t.fb px py = true ↔ ¬ (getPixel s.fb px py = true ↔ SpriteCovers x y n.val s px py)) ∧
      ((∃ px py, SpriteCovers x y n.val s px py ∧ getPixel s.fb px py = true) → getV 15 t = 1) ∧
      ((¬ ∃ px py, SpriteCovers x y n.val s px py ∧ getPixel s.fb px py = true) → getV 15 t = 0) ∧
      RegsKeptExcept (· == 15) s t ∧ OnlyChanged [.regs, .framebuffer] s t

/-- The double-draw law: drawing twice from one origin restores the framebuffer, and the second draw sets VF exactly when some covered
pixel was off before the first (R144). The origin is the same both times when x and y are not VF. -/
def Obligations.DoubleDrawRestores : Prop :=
  ∀ (x y : RegIdx) (n : Fin 16) (s : State), x ≠ 15 → y ≠ 15 →
    ∃ t u, exec (.drwVxVyN x y n) s = .next t ∧ exec (.drwVxVyN x y n) t = .next u ∧ u.fb = s.fb ∧
      (getV 15 u = 1 ↔ ∃ px py, SpriteCovers x y n.val s px py ∧ getPixel s.fb px py = false) ∧
      (getV 15 u = 0 ∨ getV 15 u = 1)

/-! ## Control flow (42_control_flow.md) -/

/-- 00EE pops all 16 bits of the top entry into the pc and keeps the entry; with SP = 0 nothing changes but the fault record, the pc is
that of the 00EE itself, and the machine is halted (R150). No other word is RET: D8 (log 8). A full stack has SP = 16: D14 (log 7). The
fault policy is D3 (log 8), the latch D1 (log 1). -/
def Obligations.ReturnPops : Prop :=
  (∀ w : Word, decodeWord w = .ok .ret ↔ w = 0x00EE) ∧
  (∀ (s : State) (k : Fin 16), s.sp.val = k.val + 1 → ∃ t, exec .ret s = .next t ∧
    t.pc = s.stack[k] ∧ t.sp.val = k.val ∧ OnlyChanged [.sp, .pc] s t) ∧
  (∀ s : State, s.sp.val = 0 → ∃ t, exec .ret s = .next t ∧ halted t ∧
    t.fault = { cause := .stackUnderflow, fpc := s.pc - 2, fop := 0x00EE } ∧ t.pc = s.pc - 2 ∧ OnlyChanged [.pc, .latch] s t)

/-- 1nnn: pc <- nnn, any nnn, so the pc is below 0x1000; nothing else changes (R151). -/
def Obligations.JumpSetsPc : Prop :=
  ∀ nnn : Addr12, decodeWord (BitVec.ofNat 16 (0x1000 + nnn.toNat)) = .ok (.jp nnn) ∧
    ∀ s : State, ∃ t, exec (.jp nnn) s = .next t ∧ t.pc.toNat = nnn.toNat ∧ t.pc.toNat < 0x1000 ∧ OnlyChanged [.pc] s t

/-- 2nnn pushes the advanced pc, all 16 bits, and jumps; with SP = 16 nothing changes but the fault record, the pc is that of the 2nnn
itself, and the machine is halted (R152). That SP = 15 still pushes and SP = 16 is full is C4, D14 (log 7). The fault policy is D3 (log 8),
the latch D1 (log 1). -/
def Obligations.CallPushes : Prop :=
  ∀ nnn : Addr12, decodeWord (BitVec.ofNat 16 (0x2000 + nnn.toNat)) = .ok (.call nnn) ∧
    (∀ (s : State) (k : Fin 16), s.sp.val = k.val → ∃ t, exec (.call nnn) s = .next t ∧
      t.stack[k] = s.pc ∧ (∀ j : Fin 16, j ≠ k → t.stack[j] = s.stack[j]) ∧ t.sp.val = k.val + 1 ∧
      t.pc.toNat = nnn.toNat ∧ OnlyChanged [.stack, .sp, .pc] s t) ∧
    (∀ s : State, s.sp.val = 16 → ∃ t, exec (.call nnn) s = .next t ∧ halted t ∧
      t.fault = { cause := .stackOverflow, fpc := s.pc - 2, fop := BitVec.ofNat 16 (0x2000 + nnn.toNat) } ∧
      t.pc = s.pc - 2 ∧ OnlyChanged [.pc, .latch] s t)

/-- A call immediately followed by a return: the pc is the call's own advanced pc, and the stack has not grown (95_test_vectors.md S5,
R150, R152, R158). Two whole steps; the return's word stands at the call's target. That SP = 15 is not full is C4, D14 (log 7). -/
def Obligations.CallThenReturnComesBack : Prop :=
  ∀ (s t u : State) (nnn : Addr12), ¬ halted s → s.sp.val < 16 → decodeWord (fetch s) = .ok (.call nnn) →
    step s = .next t → decodeWord (fetch t) = .ok .ret → step t = .next u →
    u.pc = s.pc + 2 ∧ u.sp = s.sp ∧ ¬ halted u ∧ ∀ j : Fin 16, j.val < s.sp.val → u.stack[j] = s.stack[j]

/-- 3xkk skips when Vx = kk, 4xkk when Vx ≠ kk: pc + 2 on the advanced pc, else the pc as it is; nothing else changes (R153, R154). -/
def Obligations.SkipOnImmediate : Prop :=
  ∀ (x : RegIdx) (kk : Byte),
    decodeWord (BitVec.ofNat 16 (0x3000 + 256 * x.val + kk.toNat)) = .ok (.seVxKk x kk) ∧
    decodeWord (BitVec.ofNat 16 (0x4000 + 256 * x.val + kk.toNat)) = .ok (.sneVxKk x kk) ∧
    ∀ s : State, ∃ t u, exec (.seVxKk x kk) s = .next t ∧ exec (.sneVxKk x kk) s = .next u ∧
      t.pc = (if (getV x s).toNat = kk.toNat then s.pc + 2 else s.pc) ∧ OnlyChanged [.pc] s t ∧
      u.pc = (if (getV x s).toNat = kk.toNat then s.pc else s.pc + 2) ∧ OnlyChanged [.pc] s u

/-- 5xy0 skips when Vx = Vy, 9xy0 when Vx ≠ Vy; nothing else changes; with n ≠ 0 the word is illegal (R155, R156). -/
def Obligations.SkipOnRegister : Prop :=
  ∀ x y n : Fin 16,
    (decodeWord (BitVec.ofNat 16 (0x5000 + 256 * x.val + 16 * y.val + n.val)) =
      if n = 0 then .ok (.seVxVy x y) else .error .nonzeroLowNibble) ∧
    (decodeWord (BitVec.ofNat 16 (0x9000 + 256 * x.val + 16 * y.val + n.val)) =
      if n = 0 then .ok (.sneVxVy x y) else .error .nonzeroLowNibble) ∧
    ∀ s : State, ∃ t u, exec (.seVxVy x y) s = .next t ∧ exec (.sneVxVy x y) s = .next u ∧
      t.pc = (if (getV x s).toNat = (getV y s).toNat then s.pc + 2 else s.pc) ∧ OnlyChanged [.pc] s t ∧
      u.pc = (if (getV x s).toNat = (getV y s).toNat then s.pc else s.pc + 2) ∧ OnlyChanged [.pc] s u

/-- Bnnn: pc <- V0 + nnn, V0 whatever the nibble x is, the sum not masked; nothing else changes (R157). That the pc keeps
all 16 bits of the sum is D27, with the mask at the memory port D4 (log 8). -/
def Obligations.JumpWithOffset : Prop :=
  ∀ nnn : Addr12, decodeWord (BitVec.ofNat 16 (0xB000 + nnn.toNat)) = .ok (.jpV0Nnn nnn) ∧
    ∀ s : State, ∃ t, exec (.jpV0Nnn nnn) s = .next t ∧ t.pc.toNat = (getV 0 s).toNat + nnn.toNat ∧ OnlyChanged [.pc] s t

/-- A jump to itself with both timers at zero is a fixed point: only the inputs' place moves on (R131; the inputs are log 2). -/
def Obligations.JumpToSelfIsFixedPoint : Prop :=
  ∀ (s : State) (nnn : Addr12), ¬ halted s → decodeWord (fetch s) = .ok (.jp nnn) → s.pc.toNat = nnn.toNat → s.dt = 0 → s.st = 0 →
    step s = .next { s with inputs := s.inputs.tail, inputIndex := s.inputIndex + 1 }

/-! ## ALU (43_alu.md) -/

/-- 6xkk: Vx <- kk, any x; nothing else changes (R170). -/
def Obligations.LoadImmediate : Prop :=
  ∀ (x : RegIdx) (kk : Byte), decodeWord (BitVec.ofNat 16 (0x6000 + 256 * x.val + kk.toNat)) = .ok (.ldVxKk x kk) ∧
    ∀ s : State, ∃ t, exec (.ldVxKk x kk) s = .next t ∧ getV x t = kk ∧ RegsKeptExcept (· == x) s t ∧ OnlyChanged [.regs] s t

/-- 7xkk: Vx <- (Vx + kk) mod 256, VF not written as a flag; adding the complementary byte (256 - kk) mod 256 then restores Vx (R171). -/
def Obligations.AddImmediate : Prop :=
  ∀ (x : RegIdx) (kk : Byte), decodeWord (BitVec.ofNat 16 (0x7000 + 256 * x.val + kk.toNat)) = .ok (.addVxKk x kk) ∧
    ∀ s : State, ∃ t u, exec (.addVxKk x kk) s = .next t ∧ (getV x t).toNat = ((getV x s).toNat + kk.toNat) % 256 ∧
      RegsKeptExcept (· == x) s t ∧ OnlyChanged [.regs] s t ∧
      exec (.addVxKk x (BitVec.ofNat 8 (256 - kk.toNat))) t = .next u ∧ getV x u = getV x s

/-- 8xy0 to 8xy3: copy, OR, AND, XOR, bit by bit; only Vx changes, VF is not cleared (R172 to R175). -/
def Obligations.MoveAndLogic : Prop :=
  ∀ x y : RegIdx,
    decodeWord (BitVec.ofNat 16 (0x8000 + 256 * x.val + 16 * y.val)) = .ok (.ldVxVy x y) ∧
    decodeWord (BitVec.ofNat 16 (0x8001 + 256 * x.val + 16 * y.val)) = .ok (.orVxVy x y) ∧
    decodeWord (BitVec.ofNat 16 (0x8002 + 256 * x.val + 16 * y.val)) = .ok (.andVxVy x y) ∧
    decodeWord (BitVec.ofNat 16 (0x8003 + 256 * x.val + 16 * y.val)) = .ok (.xorVxVy x y) ∧
    ∀ s : State, ∃ t1 t2 t3 t4, exec (.ldVxVy x y) s = .next t1 ∧ exec (.orVxVy x y) s = .next t2 ∧
      exec (.andVxVy x y) s = .next t3 ∧ exec (.xorVxVy x y) s = .next t4 ∧
      getV x t1 = getV y s ∧
      (∀ b < 8, (getV x t2).getLsbD b = ((getV x s).getLsbD b || (getV y s).getLsbD b)) ∧
      (∀ b < 8, (getV x t3).getLsbD b = ((getV x s).getLsbD b && (getV y s).getLsbD b)) ∧
      (∀ b < 8, (getV x t4).getLsbD b = ((getV x s).getLsbD b ^^ (getV y s).getLsbD b)) ∧
      ∀ t ∈ [t1, t2, t3, t4], RegsKeptExcept (· == x) s t ∧ OnlyChanged [.regs] s t

/-- 8xy4: Vx <- (Vx + Vy) mod 256, then VF <- carry; only Vx and VF change (R176). With x = F the carry is what remains (R181, D7). -/
def Obligations.AddWithCarry : Prop :=
  ∀ x y : RegIdx, decodeWord (BitVec.ofNat 16 (0x8004 + 256 * x.val + 16 * y.val)) = .ok (.addVxVy x y) ∧
    ∀ s : State, ∃ t, exec (.addVxVy x y) s = .next t ∧
      (x ≠ 15 → (getV x t).toNat = ((getV x s).toNat + (getV y s).toNat) % 256) ∧
      getV 15 t = (if (getV x s).toNat + (getV y s).toNat > 255 then 1 else 0) ∧
      RegsKeptExcept (fun j => j == x || j == 15) s t ∧ OnlyChanged [.regs] s t

/-- 8xy5 and 8xy7: Vx <- (Vx - Vy) mod 256 and (Vy - Vx) mod 256, then VF <- strictly greater, 0 on equal operands; only Vx and VF
change (R177, R179). With x = F the flag is what remains (R181, D7). -/
def Obligations.SubtractBothWays : Prop :=
  ∀ x y : RegIdx,
    decodeWord (BitVec.ofNat 16 (0x8005 + 256 * x.val + 16 * y.val)) = .ok (.subVxVy x y) ∧
    decodeWord (BitVec.ofNat 16 (0x8007 + 256 * x.val + 16 * y.val)) = .ok (.subnVxVy x y) ∧
    ∀ s : State, ∃ t u, exec (.subVxVy x y) s = .next t ∧ exec (.subnVxVy x y) s = .next u ∧
      (x ≠ 15 → (getV x t).toNat = ((getV x s).toNat + 256 - (getV y s).toNat) % 256) ∧
      getV 15 t = (if (getV x s).toNat > (getV y s).toNat then 1 else 0) ∧
      (x ≠ 15 → (getV x u).toNat = ((getV y s).toNat + 256 - (getV x s).toNat) % 256) ∧
      getV 15 u = (if (getV y s).toNat > (getV x s).toNat then 1 else 0) ∧
      RegsKeptExcept (fun j => j == x || j == 15) s t ∧ OnlyChanged [.regs] s t ∧
      RegsKeptExcept (fun j => j == x || j == 15) s u ∧ OnlyChanged [.regs] s u

/-- 8xy6 and 8xyE: Vx <- Vx div 2 and 2 * Vx mod 256, then VF <- the bit shifted out; Vy plays no part (R178, R180, R99). With x = F
the flag is what remains (R181, D7). -/
def Obligations.ShiftByOne : Prop :=
  ∀ x y : RegIdx,
    decodeWord (BitVec.ofNat 16 (0x8006 + 256 * x.val + 16 * y.val)) = .ok (.shrVx x y) ∧
    decodeWord (BitVec.ofNat 16 (0x800E + 256 * x.val + 16 * y.val)) = .ok (.shlVx x y) ∧
    ∀ s : State, ∃ t u, (∀ z, exec (.shrVx x z) s = .next t) ∧ (∀ z, exec (.shlVx x z) s = .next u) ∧
      (x ≠ 15 → (getV x t).toNat = (getV x s).toNat / 2) ∧ (getV 15 t).toNat = (getV x s).toNat % 2 ∧
      (x ≠ 15 → (getV x u).toNat = 2 * (getV x s).toNat % 256) ∧ (getV 15 u).toNat = (getV x s).toNat / 128 ∧
      RegsKeptExcept (fun j => j == x || j == 15) s t ∧ OnlyChanged [.regs] s t ∧
      RegsKeptExcept (fun j => j == x || j == 15) s u ∧ OnlyChanged [.regs] s u

/-! ## Index register and memory (44_index_memory.md) -/

/-- Annn: I <- nnn, so I is below 0x1000; nothing else changes (R190). -/
def Obligations.LoadIndex : Prop :=
  ∀ nnn : Addr12, decodeWord (BitVec.ofNat 16 (0xA000 + nnn.toNat)) = .ok (.ldINnn nnn) ∧
    ∀ s : State, ∃ t, exec (.ldINnn nnn) s = .next t ∧ t.i.toNat = nnn.toNat ∧ t.i.toNat < 0x1000 ∧ OnlyChanged [.index] s t

/-- Fx1E: I <- (I + Vx) mod 65536, no flag (R191; 16 bits kept, D27). -/
def Obligations.AddToIndex : Prop :=
  ∀ x : RegIdx, decodeWord (BitVec.ofNat 16 (0xF01E + 256 * x.val)) = .ok (.addIVx x) ∧
    ∀ s : State, ∃ t, exec (.addIVx x) s = .next t ∧ t.i.toNat = (s.i.toNat + (getV x s).toNat) % 65536 ∧ OnlyChanged [.index] s t

/-- Fx29: I <- FONT_BASE + 5 * Vx for every byte Vx and every FONT_BASE (R192; the whole byte counts, D9). -/
def Obligations.PointAtGlyph : Prop :=
  ∀ x : RegIdx, decodeWord (BitVec.ofNat 16 (0xF029 + 256 * x.val)) = .ok (.ldFVx x) ∧
    ∀ s : State, ∃ t, exec (.ldFVx x) s = .next t ∧ t.i.toNat = s.font.base.val + 5 * (getV x s).toNat ∧ OnlyChanged [.index] s t

/-- Fx33: the hundreds, tens and ones of Vx go to I, I + 1, I + 2, each address masked (D4, log 8) and
none protected (D24, log 8); every other byte and everything else stays (R193). -/
def Obligations.StoreBcd : Prop :=
  ∀ x : RegIdx, decodeWord (BitVec.ofNat 16 (0xF033 + 256 * x.val)) = .ok (.ldBVx x) ∧
    ∀ s : State, ∃ t, exec (.ldBVx x) s = .next t ∧
      (memRead (effAddr s 0) t).toNat = (getV x s).toNat / 100 ∧
      (memRead (effAddr s 1) t).toNat = (getV x s).toNat / 10 % 10 ∧
      (memRead (effAddr s 2) t).toNat = (getV x s).toNat % 10 ∧
      (∀ a, OutsideBlock s 3 a → memRead a t = memRead a s) ∧ OnlyChanged [.memory] s t

/-- Fx55: V0 to Vx go to I to I + x, each address masked (D4, log 8) and none protected (D24, log 8); every other byte, I (D25,
log 8) and the registers stay (R194). -/
def Obligations.StoreRegisters : Prop :=
  ∀ x : RegIdx, decodeWord (BitVec.ofNat 16 (0xF055 + 256 * x.val)) = .ok (.ldMemVx x) ∧
    ∀ s : State, ∃ t, exec (.ldMemVx x) s = .next t ∧
      (∀ k : RegIdx, k ≤ x → memRead (effAddr s k.val) t = getV k s) ∧
      (∀ a, OutsideBlock s (x.val + 1) a → memRead a t = memRead a s) ∧ OnlyChanged [.memory] s t

/-- Fx65: V0 to Vx come from I to I + x, each address masked (D4, log 8); the registers above Vx, I (D25, log 8) and memory
stay (R195). -/
def Obligations.LoadRegisters : Prop :=
  ∀ x : RegIdx, decodeWord (BitVec.ofNat 16 (0xF065 + 256 * x.val)) = .ok (.ldVxMem x) ∧
    ∀ s : State, ∃ t, exec (.ldVxMem x) s = .next t ∧
      (∀ k : RegIdx, k ≤ x → getV k t = memRead (effAddr s k.val) s) ∧
      RegsKeptExcept (fun k => decide (k ≤ x)) s t ∧ OnlyChanged [.regs] s t

/-- A store is seen by the fetch of the very next step: registers stored over the next instruction are the word fetched there
(20_memory.md R72; coherence D20, masked addresses D4, no protection D24, log 8). -/
def Obligations.StoreIsSeenByNextFetch : Prop :=
  ∀ (s : State) (x k m : RegIdx), ¬ halted s → decodeWord (fetch s) = .ok (.ldMemVx x) → k.val + 1 = m.val → m ≤ x →
    maskAddr (effAddr s k.val) = maskAddr (s.pc + 2) →
    ∃ t, step s = .next t ∧ t.pc = s.pc + 2 ∧ (fetch t).toNat = (getV k s).toNat * 256 + (getV m s).toNat

/-! ## Random, keypad, timers (45_random_keypad_timers.md) -/

/-- Cxkk: Vx <- rnd AND kk for every random byte, so no bit outside kk is set; the byte is the one the host handed this step (R200, R31;
that it is an input is D15, its place in the state log 2). -/
def Obligations.MaskedRandomByte : Prop :=
  ∀ (x : RegIdx) (kk : Byte), decodeWord (BitVec.ofNat 16 (0xC000 + 256 * x.val + kk.toNat)) = .ok (.rndVxKk x kk) ∧
    (∀ s : State, ∃ t, exec (.rndVxKk x kk) s = .next t ∧ getV x t = rndNow s &&& kk ∧ (getV x t).toNat ≤ kk.toNat ∧
      getV x t &&& ~~~kk = 0 ∧ RegsKeptExcept (· == x) s t ∧ OnlyChanged [.regs] s t) ∧
    ∀ keys rnd (s : State), rndNow (supplyInput keys rnd s) = rnd

/-- Ex9E skips when key Vx mod 16 is down, ExA1 when it is up; nothing else changes; the keys are those the host handed this step
(R201, R202; low nibble D10, the inputs' place in the state log 2). -/
def Obligations.SkipOnKey : Prop :=
  ∀ x : RegIdx,
    decodeWord (BitVec.ofNat 16 (0xE09E + 256 * x.val)) = .ok (.skpVx x) ∧
    decodeWord (BitVec.ofNat 16 (0xE0A1 + 256 * x.val)) = .ok (.sknpVx x) ∧
    (∀ s : State, ∃ t u, exec (.skpVx x) s = .next t ∧ exec (.sknpVx x) s = .next u ∧
      t.pc = (if (keysNow s).getLsbD ((getV x s).toNat % 16) = true then s.pc + 2 else s.pc) ∧ OnlyChanged [.pc] s t ∧
      u.pc = (if (keysNow s).getLsbD ((getV x s).toNat % 16) = true then s.pc else s.pc + 2) ∧ OnlyChanged [.pc] s u) ∧
    ∀ keys rnd (s : State), keysNow (supplyInput keys rnd s) = keys

/-- Fx07: Vx <- DT, the value before this step's decay (R203, R208). -/
def Obligations.ReadDelayTimer : Prop :=
  ∀ x : RegIdx, decodeWord (BitVec.ofNat 16 (0xF007 + 256 * x.val)) = .ok (.ldVxDt x) ∧
    (∀ s : State, ∃ t, exec (.ldVxDt x) s = .next t ∧ getV x t = s.dt ∧ RegsKeptExcept (· == x) s t ∧ OnlyChanged [.regs] s t) ∧
    ∀ s : State, ¬ halted s → decodeWord (fetch s) = .ok (.ldVxDt x) →
      ∃ t, step s = .next t ∧ getV x t = s.dt ∧ t.dt.toNat = s.dt.toNat - 1

/-- Fx0A: with no key down the pc goes back to this instruction and nothing else changes; otherwise Vx becomes the lowest key that is
down and the pc stays advanced (R204; the inputs' place in the state is log 2). -/
def Obligations.WaitForKey : Prop :=
  ∀ x : RegIdx, decodeWord (BitVec.ofNat 16 (0xF00A + 256 * x.val)) = .ok (.ldVxK x) ∧
    ∀ s : State, ∃ t, exec (.ldVxK x) s = .next t ∧
      (keysNow s = 0 → t.pc = s.pc - 2 ∧ OnlyChanged [.pc] s t) ∧
      (∀ k : Fin 16, (keysNow s).getLsbD k.val = true → (∀ j < k, (keysNow s).getLsbD j.val = false) →
        (getV x t).toNat = k.val ∧ RegsKeptExcept (· == x) s t ∧ OnlyChanged [.regs] s t)

/-- Fx15 and Fx18: DT <- Vx and ST <- Vx and nothing else; at the end of the step the timer is max(Vx - 1, 0) (R205, R206). -/
def Obligations.SetTimers : Prop :=
  ∀ x : RegIdx,
    decodeWord (BitVec.ofNat 16 (0xF015 + 256 * x.val)) = .ok (.ldDtVx x) ∧
    decodeWord (BitVec.ofNat 16 (0xF018 + 256 * x.val)) = .ok (.ldStVx x) ∧
    (∀ s : State, ∃ t u, exec (.ldDtVx x) s = .next t ∧ exec (.ldStVx x) s = .next u ∧
      t.dt = getV x s ∧ OnlyChanged [.delay] s t ∧ u.st = getV x s ∧ OnlyChanged [.sound] s u) ∧
    (∀ s : State, ¬ halted s → decodeWord (fetch s) = .ok (.ldDtVx x) →
      ∃ t, step s = .next t ∧ t.dt.toNat = (getV x s).toNat - 1) ∧
    ∀ s : State, ¬ halted s → decodeWord (fetch s) = .ok (.ldStVx x) →
      ∃ t, step s = .next t ∧ t.st.toNat = (getV x s).toNat - 1

/-- A timer counts completed steps: over k safe steps none of which executes Fx15, DT falls by one a step down to 0 (R208, R223). -/
def Obligations.DelayTimerCountsSteps : Prop :=
  ∀ (k : Nat) (s : State), SafeFor k s →
    (∀ j < k, ∀ u x, core.run j s = .next u → decodeWord (fetch u) ≠ .ok (.ldDtVx x)) →
    ∃ t, core.run k s = .next t ∧ t.dt.toNat = s.dt.toNat - k

/-- Fx0A waits for as long as the host keeps all keys up: after k such steps the pc, the registers and all else are as before, while both
timers have kept decaying (R204 a and e, 70_reset_and_hazards.md R245 c, R249; the decay in a waiting step is D17, log 8; the inputs'
place in the state is log 2). -/
def Obligations.WaitingKeepsDecaying : Prop :=
  ∀ (k : Nat) (s : State) (x : RegIdx), ¬ halted s → decodeWord (fetch s) = .ok (.ldVxK x) →
    (∀ j < k, ∃ now, s.inputs[j]? = some now ∧ now.keys = 0) →
    ∃ t, core.run k s = .next t ∧ OnlyChanged [.delay, .sound, .hostInputs] s t ∧
      t.dt.toNat = s.dt.toNat - k ∧ t.st.toNat = s.st.toNat - k ∧ t.inputs = s.inputs.drop k

/-- A fault is for good: however often the host steps a halted machine, the state is the same (R219, R220; D1). -/
def Obligations.HaltLastsUnderStepping : Prop := ∀ (k : Nat) (s : State), halted s → core.run k s = .next s

/-! ## The host's operations (10_state.md R37, 20_memory.md R73, 70_reset_and_hazards.md R240) -/

/-- What reset leaves, for every font: the table of R37 (the zeros of V, I, SP, STACK, DT, ST and FB are D12, the latch D1). Reset clears
a halt and rewrites memory from any state (R240; D13). -/
def Obligations.ResetValues : Prop :=
  (∀ font : Config.Font, let s := State.resetWith font
    (∀ j, getV j s = 0) ∧ s.i = 0 ∧ s.pc = 0x0200 ∧ s.sp = 0 ∧ (∀ k : Fin 16, s.stack[k] = 0) ∧ s.dt = 0 ∧ s.st = 0 ∧
    (∀ k : Fin 80, memCell s (font.base.val + k.val) = font.data[k]) ∧
    (∀ a < 4096, a < font.base.val ∨ font.base.val + 80 ≤ a → memCell s a = 0) ∧
    (∀ px py, getPixel s.fb px py = false) ∧ s.fault = { cause := .none, fpc := 0, fop := 0 } ∧ s.font = font) ∧
  ∀ s : State, OnlyChanged [.hostInputs] (State.resetWith s.font) (hostReset s) ∧ ¬ halted (hostReset s)

/-- `load`: an image of at most 3584 bytes is copied to 0x200 and up and nothing else changes; a longer one changes nothing and is
reported (R73; D22). -/
def Obligations.LoadCopiesOrRejects : Prop :=
  ∀ (bytes : List Byte) (s : State),
    (bytes.length ≤ 3584 → ∃ t, hostLoad bytes s = (.ok, t) ∧ (∀ k (h : k < bytes.length), memCell t (0x200 + k) = bytes[k]) ∧
      (∀ a < 4096, a < 0x200 ∨ 0x200 + bytes.length ≤ a → memCell t a = memCell s a) ∧ OnlyChanged [.memory] s t) ∧
    (3584 < bytes.length → hostLoad bytes s = (.tooLarge, s))
end

