-- ==== Sys2Proof/Laws/Decode.lean ====
section
/-! SUPPORT. The fields of a word and the packed words as numbers, and what the decoder answers on a packed word. -/

namespace Sys2Proof

/-! ## Fields and packed words as numbers -/

theorem opField_val (w : Word) : (opField w).val = w.toNat / 4096 := by
  simp [opField, Nat.shiftRight_eq_div_pow]
  omega

theorem xField_val (w : Word) : (xField w).val = w.toNat / 256 % 16 := by
  simp [xField, Nat.shiftRight_eq_div_pow]

theorem yField_val (w : Word) : (yField w).val = w.toNat / 16 % 16 := by
  simp [yField, Nat.shiftRight_eq_div_pow]

theorem nField_val (w : Word) : (nField w).val = w.toNat % 16 := by
  simp [nField]

theorem kkField_toNat (w : Word) : (kkField w).toNat = w.toNat % 256 := by
  simp [kkField]

theorem nnnField_toNat (w : Word) : (nnnField w).toNat = w.toNat % 4096 := by
  simp [nnnField]

theorem toNat_append_add {m n : Nat} (a : BitVec m) (b : BitVec n) :
    (a ++ b).toNat = a.toNat * 2 ^ n + b.toNat := by
  rw [BitVec.toNat_append, ← Nat.shiftLeft_add_eq_or_of_lt b.isLt, Nat.shiftLeft_eq]

theorem packNnn_toNat (op : BitVec 4) (nnn : Addr12) : (packNnn op nnn).toNat = op.toNat * 4096 + nnn.toNat :=
  toNat_append_add op nnn

theorem packXkk_toNat (op : BitVec 4) (x : RegIdx) (kk : Byte) :
    (packXkk op x kk).toNat = op.toNat * 4096 + x.val * 256 + kk.toNat := by
  have hx := x.isLt
  have h : (packXkk op x kk).toNat = (op.toNat * 2 ^ 4 + (BitVec.ofNat 4 x.val).toNat) * 2 ^ 8 + kk.toNat := by
    rw [← toNat_append_add op, ← toNat_append_add]; rfl
  rw [h, BitVec.toNat_ofNat, Nat.mod_eq_of_lt hx]
  omega

theorem packXyn_toNat (op : BitVec 4) (x y n : Fin 16) :
    (packXyn op x y n).toNat = op.toNat * 4096 + x.val * 256 + y.val * 16 + n.val := by
  have hx := x.isLt
  have hy := y.isLt
  have hn := n.isLt
  have h : (packXyn op x y n).toNat = ((op.toNat * 2 ^ 4 + (BitVec.ofNat 4 x.val).toNat) * 2 ^ 4 +
      (BitVec.ofNat 4 y.val).toNat) * 2 ^ 4 + (BitVec.ofNat 4 n.val).toNat := by
    rw [← toNat_append_add op, ← toNat_append_add, ← toNat_append_add]; rfl
  rw [h, BitVec.toNat_ofNat, BitVec.toNat_ofNat, BitVec.toNat_ofNat, Nat.mod_eq_of_lt hx, Nat.mod_eq_of_lt hy,
    Nat.mod_eq_of_lt hn]
  omega

theorem wordOfBytes_toNat (hi lo : Byte) : (wordOfBytes hi lo).toNat = hi.toNat * 256 + lo.toNat :=
  toNat_append_add hi lo

/-! ## Fields of packed words -/

section
variable (op : BitVec 4) (nnn : Addr12) (x y n : Fin 16) (kk : Byte)

@[simp] theorem opField_packNnn : (opField (packNnn op nnn)).val = op.toNat := by
  rw [opField_val, packNnn_toNat]; have := nnn.isLt; omega
@[simp] theorem nnnField_packNnn : nnnField (packNnn op nnn) = nnn := by
  apply BitVec.eq_of_toNat_eq; rw [nnnField_toNat, packNnn_toNat]; have := nnn.isLt; omega

@[simp] theorem opField_packXkk : (opField (packXkk op x kk)).val = op.toNat := by
  rw [opField_val, packXkk_toNat]; have := kk.isLt; omega
@[simp] theorem xField_packXkk : xField (packXkk op x kk) = x := by
  apply Fin.ext; rw [xField_val, packXkk_toNat]; have := kk.isLt; omega
@[simp] theorem kkField_packXkk : kkField (packXkk op x kk) = kk := by
  apply BitVec.eq_of_toNat_eq; rw [kkField_toNat, packXkk_toNat]; have := kk.isLt; omega

@[simp] theorem opField_packXyn : (opField (packXyn op x y n)).val = op.toNat := by
  rw [opField_val, packXyn_toNat]; omega
@[simp] theorem xField_packXyn : xField (packXyn op x y n) = x := by
  apply Fin.ext; rw [xField_val, packXyn_toNat]; omega
@[simp] theorem yField_packXyn : yField (packXyn op x y n) = y := by
  apply Fin.ext; rw [yField_val, packXyn_toNat]; omega
@[simp] theorem nField_packXyn : nField (packXyn op x y n) = n := by
  apply Fin.ext; rw [nField_val, packXyn_toNat]; omega

end

/-! ## Packed words under the masks of R94 -/

section
variable (op : BitVec 4) (nnn : Addr12) (x y n : Fin 16) (kk : Byte)

theorem packNnn_and_F000 : packNnn op nnn &&& 0xF000 = packNnn op 0 := by
  have h : (op ++ nnn) &&& (0xF#4 ++ 0#12) = op ++ (0#12 : Addr12) := by
    rw [BitVec.and_append, BitVec.and_zero]
    exact congrArg (· ++ 0#12) BitVec.and_allOnes
  exact h

theorem packXkk_and_F000 : packXkk op x kk &&& 0xF000 = packXkk op 0 0 := by
  have h : (op ++ BitVec.ofNat 4 x.val ++ kk) &&& (0xF#4 ++ 0#4 ++ 0#8) = op ++ 0#4 ++ 0#8 := by
    rw [BitVec.and_append, BitVec.and_append, BitVec.and_zero, BitVec.and_zero]
    exact congrArg (· ++ 0#4 ++ 0#8) BitVec.and_allOnes
  exact h

theorem packXkk_and_F0FF : packXkk op x kk &&& 0xF0FF = packXkk op 0 kk := by
  have h : (op ++ BitVec.ofNat 4 x.val ++ kk) &&& (0xF#4 ++ 0#4 ++ 0xFF#8) = op ++ 0#4 ++ kk := by
    rw [BitVec.and_append, BitVec.and_append, BitVec.and_zero]
    have h1 : op &&& 0xF#4 = op := BitVec.and_allOnes
    have h2 : kk &&& 0xFF#8 = kk := BitVec.and_allOnes
    rw [h1, h2]
  exact h

theorem packXyn_and_F000 : packXyn op x y n &&& 0xF000 = packXyn op 0 0 0 := by
  have h : (op ++ BitVec.ofNat 4 x.val ++ BitVec.ofNat 4 y.val ++ BitVec.ofNat 4 n.val) &&& (0xF#4 ++ 0#4 ++ 0#4 ++ 0#4) =
      op ++ 0#4 ++ 0#4 ++ 0#4 := by
    rw [BitVec.and_append, BitVec.and_append, BitVec.and_append, BitVec.and_zero, BitVec.and_zero, BitVec.and_zero]
    exact congrArg (· ++ 0#4 ++ 0#4 ++ 0#4) BitVec.and_allOnes
  exact h

theorem packXyn_and_F00F : packXyn op x y n &&& 0xF00F = packXyn op 0 0 n := by
  have h : (op ++ BitVec.ofNat 4 x.val ++ BitVec.ofNat 4 y.val ++ BitVec.ofNat 4 n.val) &&& (0xF#4 ++ 0#4 ++ 0#4 ++ 0xF#4) =
      op ++ 0#4 ++ 0#4 ++ BitVec.ofNat 4 n.val := by
    rw [BitVec.and_append, BitVec.and_append, BitVec.and_append, BitVec.and_zero, BitVec.and_zero]
    have h1 : op &&& 0xF#4 = op := BitVec.and_allOnes
    have h2 : BitVec.ofNat 4 n.val &&& 0xF#4 = BitVec.ofNat 4 n.val := BitVec.and_allOnes
    rw [h1, h2]
  exact h

end

/-! ## Well-formedness by fields -/

theorem wordWellFormed_fields (w : Word) : wordWellFormed w =
    match (opField w).val with
    | 0x0 => w.toNat == 0x00E0 || w.toNat == 0x00EE
    | 0x5 => (nField w).val == 0
    | 0x8 => (nField w).val ≤ 7 || (nField w).val == 0xE
    | 0x9 => (nField w).val == 0
    | 0xE => (kkField w).toNat == 0x9E || (kkField w).toNat == 0xA1
    | 0xF => [0x07, 0x0A, 0x15, 0x18, 0x1E, 0x29, 0x33, 0x55, 0x65].contains (kkField w).toNat
    | _ => true := by
  simp only [wordWellFormed, opField_val, nField_val, kkField_toNat]
  rfl

/-! ## The fields determine the word -/

/-- A word is its top nibble and `nnn`. -/
theorem packNnn_fields (w : Word) : packNnn (BitVec.ofNat 4 (opField w).val) (nnnField w) = w := by
  apply BitVec.eq_of_toNat_eq
  rw [packNnn_toNat, nnnField_toNat, BitVec.toNat_ofNat, opField_val]
  have := w.isLt
  omega

/-- A word is its top nibble, `x` and `kk`. -/
theorem packXkk_fields (w : Word) : packXkk (BitVec.ofNat 4 (opField w).val) (xField w) (kkField w) = w := by
  apply BitVec.eq_of_toNat_eq
  rw [packXkk_toNat, kkField_toNat, BitVec.toNat_ofNat, opField_val, xField_val]
  have := w.isLt
  omega

/-- A word is its four nibbles. -/
theorem packXyn_fields (w : Word) : packXyn (BitVec.ofNat 4 (opField w).val) (xField w) (yField w) (nField w) = w := by
  apply BitVec.eq_of_toNat_eq
  rw [packXyn_toNat, BitVec.toNat_ofNat, opField_val, xField_val, yField_val, nField_val]
  have := w.isLt
  omega

/-- The bytes of a word, put together again, are the word. -/
@[simp] theorem wordOfBytes_bytesOfWord (w : Word) : wordOfBytes (bytesOfWord w).1 (bytesOfWord w).2 = w := by
  apply BitVec.eq_of_toNat_eq
  rw [wordOfBytes_toNat]
  simp only [bytesOfWord, BitVec.extractLsb'_toNat, Nat.shiftRight_eq_div_pow]
  have := w.isLt
  omega

/-- The table's word is what the decoder reads from it. -/
theorem decodeTableWord_eq (w : Word) : decodeTableWord 16 w.toNat = (decodeWord w).toOption := by
  have h : BitVec.ofNat 16 (w.toNat % 2 ^ 16) = w := by
    apply BitVec.eq_of_toNat_eq; rw [BitVec.toNat_ofNat]; have := w.isLt; omega
  simp only [decodeTableWord, h, decodeBytes, wordOfBytes_bytesOfWord]
  cases decodeWord w <;> rfl

end Sys2Proof
end

