-- ==== Sys2Proof/Laws/State.lean ====
section
/-! SUPPORT. One lemma per field per update of the state, true by rfl, so that no proof unfolds a record update. -/

namespace Sys2Proof.Machine

variable (s : State)

/-! ### setV -/

@[simp] theorem setV_v (x : RegIdx) (b : Byte) : (setV x b s).v = s.v.set x b := rfl
@[simp] theorem setV_i (x : RegIdx) (b : Byte) : (setV x b s).i = s.i := rfl
@[simp] theorem setV_pc (x : RegIdx) (b : Byte) : (setV x b s).pc = s.pc := rfl
@[simp] theorem setV_sp (x : RegIdx) (b : Byte) : (setV x b s).sp = s.sp := rfl
@[simp] theorem setV_stack (x : RegIdx) (b : Byte) : (setV x b s).stack = s.stack := rfl
@[simp] theorem setV_dt (x : RegIdx) (b : Byte) : (setV x b s).dt = s.dt := rfl
@[simp] theorem setV_st (x : RegIdx) (b : Byte) : (setV x b s).st = s.st := rfl
@[simp] theorem setV_mem (x : RegIdx) (b : Byte) : (setV x b s).mem = s.mem := rfl
@[simp] theorem setV_fb (x : RegIdx) (b : Byte) : (setV x b s).fb = s.fb := rfl
@[simp] theorem setV_fault (x : RegIdx) (b : Byte) : (setV x b s).fault = s.fault := rfl
@[simp] theorem setV_font (x : RegIdx) (b : Byte) : (setV x b s).font = s.font := rfl
@[simp] theorem setV_inputs (x : RegIdx) (b : Byte) : (setV x b s).inputs = s.inputs := rfl
@[simp] theorem setV_inputIndex (x : RegIdx) (b : Byte) : (setV x b s).inputIndex = s.inputIndex := rfl

/-! ### setI -/

@[simp] theorem setI_v (a : Word) : (setI a s).v = s.v := rfl
@[simp] theorem setI_i (a : Word) : (setI a s).i = a := rfl
@[simp] theorem setI_pc (a : Word) : (setI a s).pc = s.pc := rfl
@[simp] theorem setI_sp (a : Word) : (setI a s).sp = s.sp := rfl
@[simp] theorem setI_stack (a : Word) : (setI a s).stack = s.stack := rfl
@[simp] theorem setI_dt (a : Word) : (setI a s).dt = s.dt := rfl
@[simp] theorem setI_st (a : Word) : (setI a s).st = s.st := rfl
@[simp] theorem setI_mem (a : Word) : (setI a s).mem = s.mem := rfl
@[simp] theorem setI_fb (a : Word) : (setI a s).fb = s.fb := rfl
@[simp] theorem setI_fault (a : Word) : (setI a s).fault = s.fault := rfl
@[simp] theorem setI_font (a : Word) : (setI a s).font = s.font := rfl
@[simp] theorem setI_inputs (a : Word) : (setI a s).inputs = s.inputs := rfl
@[simp] theorem setI_inputIndex (a : Word) : (setI a s).inputIndex = s.inputIndex := rfl

/-! ### setPc -/

@[simp] theorem setPc_v (a : Word) : (setPc a s).v = s.v := rfl
@[simp] theorem setPc_i (a : Word) : (setPc a s).i = s.i := rfl
@[simp] theorem setPc_pc (a : Word) : (setPc a s).pc = a := rfl
@[simp] theorem setPc_sp (a : Word) : (setPc a s).sp = s.sp := rfl
@[simp] theorem setPc_stack (a : Word) : (setPc a s).stack = s.stack := rfl
@[simp] theorem setPc_dt (a : Word) : (setPc a s).dt = s.dt := rfl
@[simp] theorem setPc_st (a : Word) : (setPc a s).st = s.st := rfl
@[simp] theorem setPc_mem (a : Word) : (setPc a s).mem = s.mem := rfl
@[simp] theorem setPc_fb (a : Word) : (setPc a s).fb = s.fb := rfl
@[simp] theorem setPc_fault (a : Word) : (setPc a s).fault = s.fault := rfl
@[simp] theorem setPc_font (a : Word) : (setPc a s).font = s.font := rfl
@[simp] theorem setPc_inputs (a : Word) : (setPc a s).inputs = s.inputs := rfl
@[simp] theorem setPc_inputIndex (a : Word) : (setPc a s).inputIndex = s.inputIndex := rfl

/-! ### memWrite -/

@[simp] theorem memWrite_v (a : Word) (b : Byte) : (memWrite a b s).v = s.v := rfl
@[simp] theorem memWrite_i (a : Word) (b : Byte) : (memWrite a b s).i = s.i := rfl
@[simp] theorem memWrite_pc (a : Word) (b : Byte) : (memWrite a b s).pc = s.pc := rfl
@[simp] theorem memWrite_sp (a : Word) (b : Byte) : (memWrite a b s).sp = s.sp := rfl
@[simp] theorem memWrite_stack (a : Word) (b : Byte) : (memWrite a b s).stack = s.stack := rfl
@[simp] theorem memWrite_dt (a : Word) (b : Byte) : (memWrite a b s).dt = s.dt := rfl
@[simp] theorem memWrite_st (a : Word) (b : Byte) : (memWrite a b s).st = s.st := rfl
@[simp] theorem memWrite_mem (a : Word) (b : Byte) : (memWrite a b s).mem = memSet s.font s.mem (maskAddr a) b := rfl
@[simp] theorem memWrite_fb (a : Word) (b : Byte) : (memWrite a b s).fb = s.fb := rfl
@[simp] theorem memWrite_fault (a : Word) (b : Byte) : (memWrite a b s).fault = s.fault := rfl
@[simp] theorem memWrite_font (a : Word) (b : Byte) : (memWrite a b s).font = s.font := rfl
@[simp] theorem memWrite_inputs (a : Word) (b : Byte) : (memWrite a b s).inputs = s.inputs := rfl
@[simp] theorem memWrite_inputIndex (a : Word) (b : Byte) : (memWrite a b s).inputIndex = s.inputIndex := rfl

/-! ### advancePc -/

@[simp] theorem advancePc_v : (advancePc s).v = s.v := rfl
@[simp] theorem advancePc_i : (advancePc s).i = s.i := rfl
@[simp] theorem advancePc_pc : (advancePc s).pc = s.pc + 2 := rfl
@[simp] theorem advancePc_sp : (advancePc s).sp = s.sp := rfl
@[simp] theorem advancePc_stack : (advancePc s).stack = s.stack := rfl
@[simp] theorem advancePc_dt : (advancePc s).dt = s.dt := rfl
@[simp] theorem advancePc_st : (advancePc s).st = s.st := rfl
@[simp] theorem advancePc_mem : (advancePc s).mem = s.mem := rfl
@[simp] theorem advancePc_fb : (advancePc s).fb = s.fb := rfl
@[simp] theorem advancePc_fault : (advancePc s).fault = s.fault := rfl
@[simp] theorem advancePc_font : (advancePc s).font = s.font := rfl
@[simp] theorem advancePc_inputs : (advancePc s).inputs = s.inputs := rfl
@[simp] theorem advancePc_inputIndex : (advancePc s).inputIndex = s.inputIndex := rfl

/-! ### takeFault -/

@[simp] theorem takeFault_v (c : FaultCause) (a w : Word) : (takeFault c a w s).v = s.v := rfl
@[simp] theorem takeFault_i (c : FaultCause) (a w : Word) : (takeFault c a w s).i = s.i := rfl
@[simp] theorem takeFault_pc (c : FaultCause) (a w : Word) : (takeFault c a w s).pc = a := rfl
@[simp] theorem takeFault_sp (c : FaultCause) (a w : Word) : (takeFault c a w s).sp = s.sp := rfl
@[simp] theorem takeFault_stack (c : FaultCause) (a w : Word) : (takeFault c a w s).stack = s.stack := rfl
@[simp] theorem takeFault_dt (c : FaultCause) (a w : Word) : (takeFault c a w s).dt = s.dt := rfl
@[simp] theorem takeFault_st (c : FaultCause) (a w : Word) : (takeFault c a w s).st = s.st := rfl
@[simp] theorem takeFault_mem (c : FaultCause) (a w : Word) : (takeFault c a w s).mem = s.mem := rfl
@[simp] theorem takeFault_fb (c : FaultCause) (a w : Word) : (takeFault c a w s).fb = s.fb := rfl
@[simp] theorem takeFault_fault (c : FaultCause) (a w : Word) : (takeFault c a w s).fault = { cause := c, fpc := a, fop := w } := rfl
@[simp] theorem takeFault_font (c : FaultCause) (a w : Word) : (takeFault c a w s).font = s.font := rfl
@[simp] theorem takeFault_inputs (c : FaultCause) (a w : Word) : (takeFault c a w s).inputs = s.inputs := rfl
@[simp] theorem takeFault_inputIndex (c : FaultCause) (a w : Word) : (takeFault c a w s).inputIndex = s.inputIndex := rfl

/-! ### raise -/

@[simp] theorem raise_v (c : FaultCause) (ins : Instr) : (raise c ins s).v = s.v := rfl
@[simp] theorem raise_i (c : FaultCause) (ins : Instr) : (raise c ins s).i = s.i := rfl
@[simp] theorem raise_pc (c : FaultCause) (ins : Instr) : (raise c ins s).pc = s.pc - 2 := rfl
@[simp] theorem raise_sp (c : FaultCause) (ins : Instr) : (raise c ins s).sp = s.sp := rfl
@[simp] theorem raise_stack (c : FaultCause) (ins : Instr) : (raise c ins s).stack = s.stack := rfl
@[simp] theorem raise_dt (c : FaultCause) (ins : Instr) : (raise c ins s).dt = s.dt := rfl
@[simp] theorem raise_st (c : FaultCause) (ins : Instr) : (raise c ins s).st = s.st := rfl
@[simp] theorem raise_mem (c : FaultCause) (ins : Instr) : (raise c ins s).mem = s.mem := rfl
@[simp] theorem raise_fb (c : FaultCause) (ins : Instr) : (raise c ins s).fb = s.fb := rfl
@[simp] theorem raise_fault (c : FaultCause) (ins : Instr) : (raise c ins s).fault = { cause := c, fpc := s.pc - 2, fop := encode ins } := rfl
@[simp] theorem raise_font (c : FaultCause) (ins : Instr) : (raise c ins s).font = s.font := rfl
@[simp] theorem raise_inputs (c : FaultCause) (ins : Instr) : (raise c ins s).inputs = s.inputs := rfl
@[simp] theorem raise_inputIndex (c : FaultCause) (ins : Instr) : (raise c ins s).inputIndex = s.inputIndex := rfl

/-! ### decayTimers -/

@[simp] theorem decayTimers_v : (decayTimers s).v = s.v := rfl
@[simp] theorem decayTimers_i : (decayTimers s).i = s.i := rfl
@[simp] theorem decayTimers_pc : (decayTimers s).pc = s.pc := rfl
@[simp] theorem decayTimers_sp : (decayTimers s).sp = s.sp := rfl
@[simp] theorem decayTimers_stack : (decayTimers s).stack = s.stack := rfl
@[simp] theorem decayTimers_dt : (decayTimers s).dt = decay s.dt := rfl
@[simp] theorem decayTimers_st : (decayTimers s).st = decay s.st := rfl
@[simp] theorem decayTimers_mem : (decayTimers s).mem = s.mem := rfl
@[simp] theorem decayTimers_fb : (decayTimers s).fb = s.fb := rfl
@[simp] theorem decayTimers_fault : (decayTimers s).fault = s.fault := rfl
@[simp] theorem decayTimers_font : (decayTimers s).font = s.font := rfl
@[simp] theorem decayTimers_inputs : (decayTimers s).inputs = s.inputs := rfl
@[simp] theorem decayTimers_inputIndex : (decayTimers s).inputIndex = s.inputIndex := rfl

/-! ### advanceInputs -/

@[simp] theorem advanceInputs_v : (advanceInputs s).v = s.v := rfl
@[simp] theorem advanceInputs_i : (advanceInputs s).i = s.i := rfl
@[simp] theorem advanceInputs_pc : (advanceInputs s).pc = s.pc := rfl
@[simp] theorem advanceInputs_sp : (advanceInputs s).sp = s.sp := rfl
@[simp] theorem advanceInputs_stack : (advanceInputs s).stack = s.stack := rfl
@[simp] theorem advanceInputs_dt : (advanceInputs s).dt = s.dt := rfl
@[simp] theorem advanceInputs_st : (advanceInputs s).st = s.st := rfl
@[simp] theorem advanceInputs_mem : (advanceInputs s).mem = s.mem := rfl
@[simp] theorem advanceInputs_fb : (advanceInputs s).fb = s.fb := rfl
@[simp] theorem advanceInputs_fault : (advanceInputs s).fault = s.fault := rfl
@[simp] theorem advanceInputs_font : (advanceInputs s).font = s.font := rfl
@[simp] theorem advanceInputs_inputs : (advanceInputs s).inputs = s.inputs.tail := rfl
@[simp] theorem advanceInputs_inputIndex : (advanceInputs s).inputIndex = s.inputIndex + 1 := rfl

/-! ### supplyInput -/

@[simp] theorem supplyInput_v (keys : BitVec 16) (rnd : Byte) : (supplyInput keys rnd s).v = s.v := rfl
@[simp] theorem supplyInput_i (keys : BitVec 16) (rnd : Byte) : (supplyInput keys rnd s).i = s.i := rfl
@[simp] theorem supplyInput_pc (keys : BitVec 16) (rnd : Byte) : (supplyInput keys rnd s).pc = s.pc := rfl
@[simp] theorem supplyInput_sp (keys : BitVec 16) (rnd : Byte) : (supplyInput keys rnd s).sp = s.sp := rfl
@[simp] theorem supplyInput_stack (keys : BitVec 16) (rnd : Byte) : (supplyInput keys rnd s).stack = s.stack := rfl
@[simp] theorem supplyInput_dt (keys : BitVec 16) (rnd : Byte) : (supplyInput keys rnd s).dt = s.dt := rfl
@[simp] theorem supplyInput_st (keys : BitVec 16) (rnd : Byte) : (supplyInput keys rnd s).st = s.st := rfl
@[simp] theorem supplyInput_mem (keys : BitVec 16) (rnd : Byte) : (supplyInput keys rnd s).mem = s.mem := rfl
@[simp] theorem supplyInput_fb (keys : BitVec 16) (rnd : Byte) : (supplyInput keys rnd s).fb = s.fb := rfl
@[simp] theorem supplyInput_fault (keys : BitVec 16) (rnd : Byte) : (supplyInput keys rnd s).fault = s.fault := rfl
@[simp] theorem supplyInput_font (keys : BitVec 16) (rnd : Byte) : (supplyInput keys rnd s).font = s.font := rfl
@[simp] theorem supplyInput_inputs (keys : BitVec 16) (rnd : Byte) : (supplyInput keys rnd s).inputs = [{ keys := keys, rnd := rnd }] := rfl
@[simp] theorem supplyInput_inputIndex (keys : BitVec 16) (rnd : Byte) : (supplyInput keys rnd s).inputIndex = s.inputIndex := rfl

/-! ### skipIf: only the pc -/

@[simp] theorem skipIf_v (b : Bool) : (skipIf b s).v = s.v := by cases b <;> rfl
@[simp] theorem skipIf_i (b : Bool) : (skipIf b s).i = s.i := by cases b <;> rfl
@[simp] theorem skipIf_pc (b : Bool) : (skipIf b s).pc = if b then s.pc + 2 else s.pc := by cases b <;> rfl
@[simp] theorem skipIf_sp (b : Bool) : (skipIf b s).sp = s.sp := by cases b <;> rfl
@[simp] theorem skipIf_stack (b : Bool) : (skipIf b s).stack = s.stack := by cases b <;> rfl
@[simp] theorem skipIf_dt (b : Bool) : (skipIf b s).dt = s.dt := by cases b <;> rfl
@[simp] theorem skipIf_st (b : Bool) : (skipIf b s).st = s.st := by cases b <;> rfl
@[simp] theorem skipIf_mem (b : Bool) : (skipIf b s).mem = s.mem := by cases b <;> rfl
@[simp] theorem skipIf_fb (b : Bool) : (skipIf b s).fb = s.fb := by cases b <;> rfl
@[simp] theorem skipIf_fault (b : Bool) : (skipIf b s).fault = s.fault := by cases b <;> rfl
@[simp] theorem skipIf_font (b : Bool) : (skipIf b s).font = s.font := by cases b <;> rfl
@[simp] theorem skipIf_inputs (b : Bool) : (skipIf b s).inputs = s.inputs := by cases b <;> rfl
@[simp] theorem skipIf_inputIndex (b : Bool) : (skipIf b s).inputIndex = s.inputIndex := by cases b <;> rfl

/-! ### Register reads after register writes -/

@[simp] theorem getV_setV (x j : RegIdx) (b : Byte) : getV j (setV x b s) = if x = j then b else getV j s := by
  simp only [getV, setV, Fin.getElem_fin, Vector.getElem_set, Fin.ext_iff]

theorem getV_of_v_eq {s t : State} (h : t.v = s.v) (j : RegIdx) : getV j t = getV j s := by simp [getV, h]

end Sys2Proof.Machine
end

