-- ==== Sys2Proof/Laws/Memory.lean ====
section
/-! SUPPORT. The laws of memory: read after write, and every memory operation keeps the canonical form. -/

namespace Sys2Proof.Machine

theorem memGet_insertCell (font : Config.Font) (m : Memory) (a k : Nat) (b : Byte) :
    memGet font (insertCell a b m) k = if a = k then b else memGet font m k := by
  induction m with
  | nil => simp [insertCell, memGet]
  | cons c rest ih =>
    simp only [insertCell]
    split
    · simp [memGet]
    · split
      · rename_i h; subst h; simp only [memGet]; split <;> rfl
      · rename_i hne; simp only [memGet, ih]
        by_cases hk : c.1 = k
        · have : a ≠ k := fun h => hne (hk.trans h.symm)
          simp [hk, this]
        · simp [hk]

theorem memGet_eraseCell (font : Config.Font) (m : Memory) (a k : Nat) :
    memGet font (eraseCell a m) k = if a = k then resetByte font k else memGet font m k := by
  induction m with
  | nil => simp [eraseCell, memGet]
  | cons c rest ih =>
    simp only [eraseCell] at ih ⊢
    by_cases hc : c.1 = a
    · subst hc
      rw [List.filter_cons_of_neg (by simp), ih]
      by_cases hk : c.1 = k <;> simp [memGet, hk]
    · rw [List.filter_cons_of_pos (by simpa using hc)]
      simp only [memGet, ih]
      by_cases hk : c.1 = k
      · have : a ≠ k := fun h => hc (hk.trans h.symm)
        simp [hk, this]
      · simp [hk]

/-- Read after write on the list: the written cell, and every other one as before. -/
theorem memGet_memSet (font : Config.Font) (m : Memory) (a k : Nat) (b : Byte) :
    memGet font (memSet font m a b) k = if a = k then b else memGet font m k := by
  unfold memSet
  split
  · rename_i h; rw [memGet_eraseCell]; split
    · rename_i hk; rw [h, hk]
    · rfl
  · exact memGet_insertCell font m a k b

theorem insertCell_wf {font : Config.Font} {m : Memory} {a : Nat} {b : Byte} (h : Memory.wf font m)
    (ha : a < Config.memSize) (hb : b ≠ resetByte font a) : Memory.wf font (insertCell a b m) := by
  induction m with
  | nil => exact ⟨by simp [insertCell], by simpa [insertCell] using ⟨ha, hb⟩⟩
  | cons c rest ih =>
    obtain ⟨hp, hc⟩ := h
    rw [List.pairwise_cons] at hp
    have hrest := ih ⟨hp.2, fun d hd => hc d (List.mem_cons_of_mem _ hd)⟩
    simp only [insertCell]
    split
    · rename_i hlt
      refine ⟨List.pairwise_cons.2 ⟨?_, List.pairwise_cons.2 hp⟩, ?_⟩
      · intro d hd
        rcases List.mem_cons.1 hd with rfl | hd
        · exact hlt
        · exact Nat.lt_trans hlt (hp.1 d hd)
      · intro d hd
        rcases List.mem_cons.1 hd with rfl | hd
        · exact ⟨ha, hb⟩
        · exact hc d hd
    · split
      · rename_i heq
        refine ⟨List.pairwise_cons.2 ⟨fun d hd => heq ▸ hp.1 d hd, hp.2⟩, ?_⟩
        intro d hd
        rcases List.mem_cons.1 hd with rfl | hd
        · exact ⟨ha, hb⟩
        · exact hc d (List.mem_cons_of_mem _ hd)
      · rename_i hlt hne
        have mem_insert : ∀ {m : Memory} {d}, d ∈ insertCell a b m → d = (a, b) ∨ d ∈ m := by
          intro m d
          induction m with
          | nil => simp [insertCell]
          | cons e m ihm =>
            simp only [insertCell]
            split
            · simp
            · split
              · intro hd; rcases List.mem_cons.1 hd with h | h
                · exact .inl h
                · exact .inr (List.mem_cons_of_mem _ h)
              · intro hd; rcases List.mem_cons.1 hd with h | h
                · exact .inr (h ▸ List.mem_cons_self)
                · rcases ihm h with h | h
                  · exact .inl h
                  · exact .inr (List.mem_cons_of_mem _ h)
        refine ⟨List.pairwise_cons.2 ⟨?_, hrest.1⟩, ?_⟩
        · intro d hd
          rcases mem_insert hd with rfl | hd
          · exact Nat.lt_of_le_of_ne (Nat.le_of_not_lt hlt) hne
          · exact hp.1 d hd
        · intro d hd
          rcases List.mem_cons.1 hd with rfl | hd
          · exact hc _ List.mem_cons_self
          · exact hrest.2 d hd

theorem eraseCell_wf {font : Config.Font} {m : Memory} (a : Nat) (h : Memory.wf font m) :
    Memory.wf font (eraseCell a m) :=
  ⟨h.1.filter _, fun c hc => h.2 c ((List.mem_filter.1 hc).1)⟩

/-- A byte store keeps the canonical form. -/
theorem memSet_wf {font : Config.Font} {m : Memory} {a : Nat} (b : Byte) (h : Memory.wf font m)
    (ha : a < Config.memSize) : Memory.wf font (memSet font m a b) := by
  unfold memSet
  split
  · exact eraseCell_wf a h
  · rename_i hb; exact insertCell_wf h ha hb

theorem maskAddr_lt (a : Word) : maskAddr a < Config.memSize := Nat.mod_lt _ (by decide)

/-- `MemWrite` keeps the canonical form. -/
theorem memWrite_wf (a : Word) (b : Byte) {s : State} (h : Memory.wf s.font s.mem) :
    Memory.wf (memWrite a b s).font (memWrite a b s).mem := memSet_wf b h (maskAddr_lt a)

/-- Read after write through the 12-bit mask. -/
theorem memRead_memWrite (a k : Word) (b : Byte) (s : State) :
    memRead k (memWrite a b s) = if maskAddr a = maskAddr k then b else memRead k s := by
  simp [memRead, memGet_memSet]

/-- A read depends on the memory, the font and the masked address alone. -/
theorem memRead_congr {s t : State} {a b : Word} (hm : s.mem = t.mem) (hf : s.font = t.font) (ha : maskAddr a = maskAddr b) :
    memRead a s = memRead b t := by simp [memRead, hm, hf, ha]

/-! ### storeBytes -/

theorem add_one_add_ofNat (a : Word) (j : Nat) : a + 1 + BitVec.ofNat 16 j = a + BitVec.ofNat 16 (j + 1) := by
  rw [BitVec.ofNat_add, BitVec.add_assoc, BitVec.add_comm (BitVec.ofNat 16 j)]
  rfl

/-- The masked address of byte `j` of a block. -/
theorem maskAddr_add (a : Word) (j : Nat) : maskAddr (a + BitVec.ofNat 16 j) = (a.toNat + j) % 4096 := by
  simp [maskAddr, Config.memSize]

/-- Byte stores change nothing but memory. -/
theorem storeBytes_eq (bs : List Byte) (a : Word) (s : State) :
    storeBytes a bs s = { s with mem := (storeBytes a bs s).mem } := by
  induction bs generalizing a s with
  | nil => rfl
  | cons b bs ih => rw [storeBytes, ih]; rfl

/-- Byte stores keep the canonical form. -/
theorem storeBytes_wf (bs : List Byte) (a : Word) {s : State} (h : Memory.wf s.font s.mem) :
    Memory.wf s.font (storeBytes a bs s).mem := by
  induction bs generalizing a s with
  | nil => exact h
  | cons b bs ih => exact ih (a + 1) (memWrite_wf a b h)

/-- An address outside the stored block reads as before. -/
theorem memRead_storeBytes_outside (bs : List Byte) (a k : Word) (s : State)
    (h : ∀ j < bs.length, maskAddr (a + BitVec.ofNat 16 j) ≠ maskAddr k) :
    memRead k (storeBytes a bs s) = memRead k s := by
  induction bs generalizing a s with
  | nil => rfl
  | cons b bs ih =>
    rw [storeBytes, ih, memRead_memWrite, if_neg]
    · have := h 0 (by simp); simpa using this
    · intro j hj
      have := h (j + 1) (by simpa using hj)
      rwa [add_one_add_ofNat]

/-- Byte `j` of a block of at most 4096 bytes is found at `a + j`. -/
theorem memRead_storeBytes_inside (bs : List Byte) (a : Word) (s : State) (hlen : bs.length ≤ 4096)
    (j : Nat) (hj : j < bs.length) :
    memRead (a + BitVec.ofNat 16 j) (storeBytes a bs s) = bs[j] := by
  induction bs generalizing a s j with
  | nil => simp at hj
  | cons b bs ih =>
    simp only [List.length_cons] at hlen hj
    cases j with
    | zero =>
      rw [storeBytes, memRead_storeBytes_outside, memRead_memWrite, if_pos]
      · rfl
      · simp
      · intro j hj'
        rw [add_one_add_ofNat, maskAddr_add, maskAddr_add]
        omega
    | succ j =>
      have := ih (a + 1) (memWrite a b s) (by omega) j (by omega)
      rw [storeBytes, List.getElem_cons_succ, ← this]
      rw [add_one_add_ofNat]

end Sys2Proof.Machine
end

