-- ==== Sys2Proof/Laws/Ops.lean ====
section
/-! SUPPORT. For each shared operation, once, everything it can do; callers cite these instead of unfolding it. -/

namespace Sys2Proof.Machine

/-! ## The call stack (R158) -/

theorem push_of_lt {s : State} (a : Word) (h : s.sp.val < 16) :
    push a s = some { s with stack := s.stack.set s.sp.val a, sp := ⟨s.sp.val + 1, Nat.succ_lt_succ h⟩ } := by
  simp [push, h]

theorem push_of_full {s : State} (a : Word) (h : s.sp.val = 16) : push a s = none := by simp [push, h]

theorem pop_of_pos {s : State} (h : 0 < s.sp.val) :
    pop s = some (s.stack[s.sp.val - 1]'(by have := s.sp.isLt; omega),
      { s with sp := ⟨s.sp.val - 1, by have := s.sp.isLt; omega⟩ }) := by
  simp [pop, h]

theorem pop_of_empty {s : State} (h : s.sp.val = 0) : pop s = none := by simp [pop, h]

/-! ## Faults and the end of a step (R218, R126, R127) -/

theorem raise_eq (c : FaultCause) (ins : Instr) (s : State) :
    raise c ins s = { s with pc := s.pc - 2, fault := { cause := c, fpc := s.pc - 2, fop := encode ins } } := rfl

theorem finish_of_halted {s : State} (h : halted s) : finish s = s := by simp [finish, h]

theorem finish_of_safe {s : State} (h : ¬ halted s) : finish s = advanceInputs (decayTimers s) := by simp [finish, h]

@[simp] theorem finish_fault (s : State) : (finish s).fault = s.fault := by
  unfold finish; split <;> rfl

theorem halted_finish (s : State) : halted (finish s) ↔ halted s := by simp [halted]

theorem decay_toNat (b : Byte) : (decay b).toNat = b.toNat - 1 := by
  unfold decay
  split
  · rename_i h; subst h; rfl
  · rename_i h
    have h0 : b.toNat ≠ 0 := fun hb => h (BitVec.eq_of_toNat_eq (by simpa using hb))
    have := b.isLt
    rw [BitVec.toNat_sub]
    simp
    omega

/-! ## Fetch (R122) -/

/-- The fetched word is the big-endian pair of the bytes at the masked pc and the masked pc + 1. -/
theorem fetch_toNat (s : State) : (fetch s).toNat =
    (memGet s.font s.mem (maskAddr s.pc)).toNat * 256 + (memGet s.font s.mem (maskAddr (s.pc + 1))).toNat :=
  wordOfBytes_toNat _ _

/-- A fetch depends on memory, font and the masked pc alone. -/
theorem fetch_congr {s t : State} (hm : s.mem = t.mem) (hf : s.font = t.font)
    (h0 : maskAddr s.pc = maskAddr t.pc) (h1 : maskAddr (s.pc + 1) = maskAddr (t.pc + 1)) : fetch s = fetch t := by
  rw [fetch, fetch, memRead_congr hm hf h0, memRead_congr hm hf h1]

/-! ## What a step can do -/

/-- A step that answers a next state is one of three: a halted machine that stays, a decode error, or an instruction executed on the
state with the pc advanced and then finished. -/
theorem step_cases {s t : State} (h : step s = .next t) :
    (halted s ∧ t = s) ∨
    (¬ halted s ∧ ∃ e, decodeWord (fetch s) = .error e ∧ t = takeFault .decodeError s.pc (fetch s) s) ∨
    (¬ halted s ∧ ∃ i u, decodeWord (fetch s) = .ok i ∧ exec i (advancePc s) = .next u ∧ t = finish u) := by
  unfold step at h
  split at h
  · rename_i hh; exact .inl ⟨hh, by injection h with h; exact h.symm⟩
  · rename_i hh
    split at h
    · rename_i i hi
      cases hx : exec i (advancePc s) with
      | next u =>
        rw [hx] at h
        exact .inr (.inr ⟨hh, i, u, hi, hx, by simpa [finishOutcome] using h.symm⟩)
      | fault r => cases r
      | refused r => rw [hx] at h; simp [finishOutcome] at h
    · rename_i e he; exact .inr (.inl ⟨hh, e, he, by injection h with h; exact h.symm⟩)

/-! ## Operands -/

/-- The least key down: none exactly when no key is down, else the one with every lower key up (R204). -/
theorem lowestKey_eq_none (keys : BitVec 16) : lowestKey keys = none ↔ keys = 0 := by
  simp only [lowestKey, List.find?_eq_none, List.mem_finRange, forall_const]
  constructor
  · intro h
    apply BitVec.eq_of_getLsbD_eq
    intro k hk
    simpa using h ⟨k, hk⟩
  · rintro rfl k; simp

theorem lowestKey_eq_some {keys : BitVec 16} {k : Fin 16} (h : lowestKey keys = some k) :
    keys.getLsbD k.val = true ∧ ∀ j < k, keys.getLsbD j.val = false := by
  unfold lowestKey at h
  refine ⟨by simpa using List.find?_some h, fun j hj => ?_⟩
  obtain ⟨_, as, bs, happ, hall⟩ := List.find?_eq_some_iff_append.1 h
  have hmem : j ∈ as := by
    have hj' : j ∈ as ++ k :: bs := happ ▸ List.mem_finRange j
    have hs : (as ++ k :: bs).Pairwise (· < ·) := happ ▸ List.pairwise_lt_finRange 16
    rcases List.mem_append.1 hj' with hm | hm
    · exact hm
    · rcases List.mem_cons.1 hm with rfl | hm
      · exact absurd hj (Nat.lt_irrefl _)
      · have := (List.pairwise_cons.1 (List.pairwise_append.1 hs).2.1).1 j hm
        exact absurd hj (Nat.lt_asymm this)
  simpa using hall j hmem

@[simp] theorem bcdDigits_length (b : Byte) : (bcdDigits b).length = 3 := rfl

@[simp] theorem regBlock_length (x : RegIdx) (s : State) : (regBlock x s).length = x.val + 1 := by
  have := x.isLt
  rw [regBlock, List.length_take, Vector.length_toList]
  omega

theorem regBlock_getElem (x : RegIdx) (s : State) (k : Nat) (h : k < (regBlock x s).length) :
    (regBlock x s)[k] = getV ⟨k, by simp at h; omega⟩ s := by
  simp [regBlock, getV]

/-- Loading `count` registers: each gets its own byte, the others stay (R195). -/
theorem getV_loadRegs (s : State) (count : Nat) (h : count ≤ 16) (j : RegIdx) :
    getV j (loadRegs s count) = if j.val < count then memRead (effAddr s j.val) s else getV j s := by
  induction count with
  | zero => simp [loadRegs]
  | succ k ih =>
    simp only [loadRegs, getV_setV, ih (by omega)]
    by_cases hj : j.val = k
    · subst hj
      simp [Fin.ext_iff, Fin.ofNat]
    · have h1 : Fin.ofNat 16 k ≠ j := by
        intro he; apply hj; rw [← he]; simp [Fin.ofNat]; omega
      rw [if_neg h1]
      by_cases hlt : j.val < k
      · rw [if_pos hlt, if_pos (by omega)]
      · rw [if_neg hlt, if_neg (by omega)]

/-- Loading registers changes nothing but registers. -/
theorem loadRegs_eq (s : State) (count : Nat) : loadRegs s count = { s with v := (loadRegs s count).v } := by
  induction count with
  | zero => rfl
  | succ k ih => rw [loadRegs, ih]; rfl

end Sys2Proof.Machine
end

