-- ==== Sys2Proof/Laws/Display.lean ====
section
/-! SUPPORT. The blitter, pixel by pixel: what a bit, a row and a sprite do to each pixel and to the collision bit. -/

namespace Sys2Proof.Machine

@[simp] theorem getPixel_clear (px : Fin 64) (py : Fin 32) : getPixel Framebuffer.clear px py = false := by
  simp [getPixel, Framebuffer.clear]

theorem getPixel_flipPixel (fb : Framebuffer) (px qx : Fin 64) (py qy : Fin 32) :
    getPixel (flipPixel fb px py) qx qy = if px = qx ∧ py = qy then !getPixel fb qx qy else getPixel fb qx qy := by
  simp only [getPixel, flipPixel, Fin.getElem_fin, Vector.getElem_set, Fin.ext_iff]
  by_cases hy : py.val = qy.val
  · have : py = qy := Fin.ext hy
    subst this
    by_cases hx : px.val = qx.val
    · have : px = qx := Fin.ext hx
      subst this; simp
    · simp [hx]
  · simp [hy]

/-- Two framebuffers with the same pixels are equal. -/
theorem framebuffer_ext {fb gb : Framebuffer} (h : ∀ px py, getPixel fb px py = getPixel gb px py) : fb = gb := by
  apply Vector.ext
  intro i hi
  apply Vector.ext
  intro j hj
  exact h ⟨j, hj⟩ ⟨i, hi⟩

/-- Columns of one row are distinct. -/
theorem pixelColumn_inj {x0 : Fin 64} {c d : Nat} (hc : c < 64) (hd : d < 64) (h : pixelColumn x0 c = pixelColumn x0 d) :
    c = d := by
  have := congrArg Fin.val h
  simp only [pixelColumn, Fin.ofNat] at this
  omega

/-- Rows of one sprite are distinct. -/
theorem pixelRow_inj {y0 : Fin 32} {r q : Nat} (hr : r < 32) (hq : q < 32) (h : pixelRow y0 r = pixelRow y0 q) : r = q := by
  have := congrArg Fin.val h
  simp only [pixelRow, Fin.ofNat] at this
  omega

/-- A row of bits flips exactly the pixels under its set bits, each once. -/
theorem getPixel_drawBits (x0 : Fin 64) (py : Fin 32) (b : Byte) (count : Nat) (h : count ≤ 64) (acc : Framebuffer × Bool)
    (qx : Fin 64) (qy : Fin 32) :
    getPixel (drawBits x0 py b count acc).1 qx qy = true ↔
      ¬ (getPixel acc.1 qx qy = true ↔ (py = qy ∧ ∃ c < count, spriteBit b c = true ∧ pixelColumn x0 c = qx)) := by
  induction count with
  | zero => simp [drawBits]
  | succ k ih =>
    have ih := ih (by omega)
    simp only [drawBits, drawBit]
    by_cases hb : spriteBit b k = true
    · rw [if_pos hb]
      simp only [getPixel_flipPixel]
      by_cases hq : pixelColumn x0 k = qx ∧ py = qy
      · obtain ⟨rfl, rfl⟩ := hq
        have hno : ¬ ∃ c < k, spriteBit b c = true ∧ pixelColumn x0 c = pixelColumn x0 k := by
          rintro ⟨c, hc, -, he⟩
          have := pixelColumn_inj (by omega) (by omega) he
          omega
        have hyes : ∃ c < k + 1, spriteBit b c = true ∧ pixelColumn x0 c = pixelColumn x0 k := ⟨k, by omega, hb, rfl⟩
        have ih' : getPixel (drawBits x0 py b k acc).1 (pixelColumn x0 k) py = getPixel acc.1 (pixelColumn x0 k) py := by
          rw [Bool.eq_iff_iff, ih]; simp [hno]
        rw [eq_true (show py = py ∧ ∃ c < k + 1, spriteBit b c = true ∧ pixelColumn x0 c = pixelColumn x0 k from ⟨rfl, hyes⟩)]
        simp [ih']
      · rw [if_neg hq, ih]
        have : (py = qy ∧ ∃ c < k + 1, spriteBit b c = true ∧ pixelColumn x0 c = qx) ↔
            (py = qy ∧ ∃ c < k, spriteBit b c = true ∧ pixelColumn x0 c = qx) := by
          constructor
          · rintro ⟨hy, c, hc, h1, h2⟩
            refine ⟨hy, c, ?_, h1, h2⟩
            rcases Nat.lt_succ_iff_lt_or_eq.1 hc with h | rfl
            · exact h
            · exact absurd ⟨h2, hy⟩ hq
          · rintro ⟨hy, c, hc, h1, h2⟩; exact ⟨hy, c, by omega, h1, h2⟩
        rw [this]
    · rw [if_neg hb, ih]
      have : (∃ c < k + 1, spriteBit b c = true ∧ pixelColumn x0 c = qx) ↔
          (∃ c < k, spriteBit b c = true ∧ pixelColumn x0 c = qx) := by
        constructor
        · rintro ⟨c, hc, h1, h2⟩
          rcases Nat.lt_succ_iff_lt_or_eq.1 hc with h | rfl
          · exact ⟨c, h, h1, h2⟩
          · exact absurd h1 hb
        · rintro ⟨c, hc, h1, h2⟩; exact ⟨c, by omega, h1, h2⟩
      rw [this]

/-- A row collides when a set bit meets a pixel that was on before the row. -/
theorem drawBits_hit (x0 : Fin 64) (py : Fin 32) (b : Byte) (count : Nat) (h : count ≤ 64) (acc : Framebuffer × Bool) :
    (drawBits x0 py b count acc).2 = true ↔
      acc.2 = true ∨ ∃ c < count, spriteBit b c = true ∧ getPixel acc.1 (pixelColumn x0 c) py = true := by
  induction count with
  | zero => simp [drawBits]
  | succ k ih =>
    have ih := ih (by omega)
    simp only [drawBits, drawBit]
    by_cases hb : spriteBit b k = true
    · have hpix : getPixel (drawBits x0 py b k acc).1 (pixelColumn x0 k) py = getPixel acc.1 (pixelColumn x0 k) py := by
        rw [Bool.eq_iff_iff, getPixel_drawBits _ _ _ _ (by omega)]
        have hno : ¬ ∃ c < k, spriteBit b c = true ∧ pixelColumn x0 c = pixelColumn x0 k := by
          rintro ⟨c, hc, -, he⟩
          have := pixelColumn_inj (by omega) (by omega) he
          omega
        simp [hno]
      rw [if_pos hb]
      simp only [Bool.or_eq_true, ih, hpix]
      constructor
      · rintro ((h | ⟨c, hc, h⟩) | h)
        · exact .inl h
        · exact .inr ⟨c, by omega, h⟩
        · exact .inr ⟨k, by omega, hb, h⟩
      · rintro (h | ⟨c, hc, h1, h2⟩)
        · exact .inl (.inl h)
        · rcases Nat.lt_succ_iff_lt_or_eq.1 hc with h | rfl
          · exact .inl (.inr ⟨c, h, h1, h2⟩)
          · exact .inr h2
    · rw [if_neg hb, ih]
      constructor
      · rintro (h | ⟨c, hc, h⟩)
        · exact .inl h
        · exact .inr ⟨c, by omega, h⟩
      · rintro (h | ⟨c, hc, h1, h2⟩)
        · exact .inl h
        · rcases Nat.lt_succ_iff_lt_or_eq.1 hc with h | rfl
          · exact .inr ⟨c, h, h1, h2⟩
          · exact absurd h1 hb

/-- The sprite bit of row `r`, column `c`. -/
abbrev rowBit (s : State) (r c : Nat) : Bool := spriteBit (memRead (effAddr s r) s) c

/-- A sprite flips exactly the pixels under its set bits, each once. -/
theorem getPixel_drawRows (x0 : Fin 64) (y0 : Fin 32) (s : State) (count : Nat) (h : count ≤ 32) (acc : Framebuffer × Bool)
    (qx : Fin 64) (qy : Fin 32) :
    getPixel (drawRows x0 y0 s count acc).1 qx qy = true ↔
      ¬ (getPixel acc.1 qx qy = true ↔
        ∃ r < count, pixelRow y0 r = qy ∧ ∃ c < 8, rowBit s r c = true ∧ pixelColumn x0 c = qx) := by
  induction count with
  | zero => simp [drawRows]
  | succ k ih =>
    have ih := ih (by omega)
    simp only [drawRows]
    rw [getPixel_drawBits _ _ _ _ (by omega), ih]
    by_cases hk : pixelRow y0 k = qy ∧ ∃ c < 8, rowBit s k c = true ∧ pixelColumn x0 c = qx
    · have hno : ¬ ∃ r < k, pixelRow y0 r = qy ∧ ∃ c < 8, rowBit s r c = true ∧ pixelColumn x0 c = qx := by
        rintro ⟨r, hr, he, -⟩
        have := pixelRow_inj (by omega) (by omega) (he.trans hk.1.symm)
        omega
      have hyes : ∃ r < k + 1, pixelRow y0 r = qy ∧ ∃ c < 8, rowBit s r c = true ∧ pixelColumn x0 c = qx :=
        ⟨k, by omega, hk⟩
      rw [iff_true_right hyes, iff_true_right hk, iff_false_right hno]
      simp
    · have : (∃ r < k + 1, pixelRow y0 r = qy ∧ ∃ c < 8, rowBit s r c = true ∧ pixelColumn x0 c = qx) ↔
          (∃ r < k, pixelRow y0 r = qy ∧ ∃ c < 8, rowBit s r c = true ∧ pixelColumn x0 c = qx) := by
        constructor
        · rintro ⟨r, hr, h1⟩
          rcases Nat.lt_succ_iff_lt_or_eq.1 hr with h | rfl
          · exact ⟨r, h, h1⟩
          · exact absurd h1 hk
        · rintro ⟨r, hr, h1⟩; exact ⟨r, by omega, h1⟩
      rw [this]
      simp only [hk, iff_false, Classical.not_not]

/-- A sprite collides when a set bit meets a pixel that was on before the draw (R143). -/
theorem drawRows_hit (x0 : Fin 64) (y0 : Fin 32) (s : State) (count : Nat) (h : count ≤ 32) (acc : Framebuffer × Bool) :
    (drawRows x0 y0 s count acc).2 = true ↔
      acc.2 = true ∨ ∃ r < count, ∃ c < 8, rowBit s r c = true ∧ getPixel acc.1 (pixelColumn x0 c) (pixelRow y0 r) = true := by
  induction count with
  | zero => simp [drawRows]
  | succ k ih =>
    have ih := ih (by omega)
    simp only [drawRows]
    rw [drawBits_hit _ _ _ _ (by omega), ih]
    have hpix : ∀ c, getPixel (drawRows x0 y0 s k acc).1 (pixelColumn x0 c) (pixelRow y0 k) =
        getPixel acc.1 (pixelColumn x0 c) (pixelRow y0 k) := by
      intro c
      rw [Bool.eq_iff_iff, getPixel_drawRows _ _ _ _ (by omega)]
      have hno : ¬ ∃ r < k, pixelRow y0 r = pixelRow y0 k ∧ ∃ d < 8, rowBit s r d = true ∧ pixelColumn x0 d = pixelColumn x0 c := by
        rintro ⟨r, hr, he, -⟩
        have := pixelRow_inj (by omega) (by omega) he
        omega
      simp [hno]
    simp only [hpix]
    constructor
    · rintro ((h | ⟨r, hr, h⟩) | h)
      · exact .inl h
      · exact .inr ⟨r, by omega, h⟩
      · exact .inr ⟨k, by omega, h⟩
    · rintro (h | ⟨r, hr, h1⟩)
      · exact .inl (.inl h)
      · rcases Nat.lt_succ_iff_lt_or_eq.1 hr with h | rfl
        · exact .inl (.inr ⟨r, h, h1⟩)
        · exact .inr h1

end Sys2Proof.Machine
end

