-- ==== Sys2Proof/Laws/PerInstr.lean ====
section
/-! SUPPORT. Facts about every instruction as syntax, one lemma per constructor. -/

namespace Sys2Proof.Laws.RowMatch

/-- An instruction's word is a well-formed word, and it selects a row of the opcode table that bears the instruction's mnemonic (R94). -/
def Statement (i : Instr) : Prop :=
  wordWellFormed (encode i) = true ∧ ∃ r ∈ opcodeTable, r.mnemonic = mnemonicOf i ∧ rowSelects r (encode i) = true

theorem cls : Statement .cls := ⟨by decide, ⟨"CLS", 0x00E0, 0xFFFF⟩, by decide, rfl, by decide⟩
theorem ret : Statement .ret := ⟨by decide, ⟨"RET", 0x00EE, 0xFFFF⟩, by decide, rfl, by decide⟩
theorem jp (nnn : Addr12) : Statement (.jp nnn) :=
  ⟨by simp [wordWellFormed_fields, encode], ⟨"JP", 0x1000, 0xF000⟩, by decide, rfl, beq_iff_eq.2 ((packNnn_and_F000 _ _).trans (by decide))⟩
theorem call (nnn : Addr12) : Statement (.call nnn) :=
  ⟨by simp [wordWellFormed_fields, encode], ⟨"CALL", 0x2000, 0xF000⟩, by decide, rfl, beq_iff_eq.2 ((packNnn_and_F000 _ _).trans (by decide))⟩
theorem seVxKk (x : RegIdx) (kk : Byte) : Statement (.seVxKk x kk) :=
  ⟨by simp [wordWellFormed_fields, encode], ⟨"SE_VX_KK", 0x3000, 0xF000⟩, by decide, rfl, beq_iff_eq.2 ((packXkk_and_F000 _ _ _).trans (by decide))⟩
theorem sneVxKk (x : RegIdx) (kk : Byte) : Statement (.sneVxKk x kk) :=
  ⟨by simp [wordWellFormed_fields, encode], ⟨"SNE_VX_KK", 0x4000, 0xF000⟩, by decide, rfl, beq_iff_eq.2 ((packXkk_and_F000 _ _ _).trans (by decide))⟩
theorem seVxVy (x y : RegIdx) : Statement (.seVxVy x y) :=
  ⟨by simp [wordWellFormed_fields, encode], ⟨"SE_VX_VY", 0x5000, 0xF00F⟩, by decide, rfl, beq_iff_eq.2 ((packXyn_and_F00F _ _ _ _).trans (by decide))⟩
theorem ldVxKk (x : RegIdx) (kk : Byte) : Statement (.ldVxKk x kk) :=
  ⟨by simp [wordWellFormed_fields, encode], ⟨"LD_VX_KK", 0x6000, 0xF000⟩, by decide, rfl, beq_iff_eq.2 ((packXkk_and_F000 _ _ _).trans (by decide))⟩
theorem addVxKk (x : RegIdx) (kk : Byte) : Statement (.addVxKk x kk) :=
  ⟨by simp [wordWellFormed_fields, encode], ⟨"ADD_VX_KK", 0x7000, 0xF000⟩, by decide, rfl, beq_iff_eq.2 ((packXkk_and_F000 _ _ _).trans (by decide))⟩
theorem ldVxVy (x y : RegIdx) : Statement (.ldVxVy x y) :=
  ⟨by simp [wordWellFormed_fields, encode], ⟨"LD_VX_VY", 0x8000, 0xF00F⟩, by decide, rfl, beq_iff_eq.2 ((packXyn_and_F00F _ _ _ _).trans (by decide))⟩
theorem orVxVy (x y : RegIdx) : Statement (.orVxVy x y) :=
  ⟨by simp [wordWellFormed_fields, encode], ⟨"OR_VX_VY", 0x8001, 0xF00F⟩, by decide, rfl, beq_iff_eq.2 ((packXyn_and_F00F _ _ _ _).trans (by decide))⟩
theorem andVxVy (x y : RegIdx) : Statement (.andVxVy x y) :=
  ⟨by simp [wordWellFormed_fields, encode], ⟨"AND_VX_VY", 0x8002, 0xF00F⟩, by decide, rfl, beq_iff_eq.2 ((packXyn_and_F00F _ _ _ _).trans (by decide))⟩
theorem xorVxVy (x y : RegIdx) : Statement (.xorVxVy x y) :=
  ⟨by simp [wordWellFormed_fields, encode] <;> decide, ⟨"XOR_VX_VY", 0x8003, 0xF00F⟩, by decide, rfl, beq_iff_eq.2 ((packXyn_and_F00F _ _ _ _).trans (by decide))⟩
theorem addVxVy (x y : RegIdx) : Statement (.addVxVy x y) :=
  ⟨by simp [wordWellFormed_fields, encode] <;> decide, ⟨"ADD_VX_VY", 0x8004, 0xF00F⟩, by decide, rfl, beq_iff_eq.2 ((packXyn_and_F00F _ _ _ _).trans (by decide))⟩
theorem subVxVy (x y : RegIdx) : Statement (.subVxVy x y) :=
  ⟨by simp [wordWellFormed_fields, encode] <;> decide, ⟨"SUB_VX_VY", 0x8005, 0xF00F⟩, by decide, rfl, beq_iff_eq.2 ((packXyn_and_F00F _ _ _ _).trans (by decide))⟩
theorem shrVx (x y : RegIdx) : Statement (.shrVx x y) :=
  ⟨by simp [wordWellFormed_fields, encode] <;> decide, ⟨"SHR_VX", 0x8006, 0xF00F⟩, by decide, rfl, beq_iff_eq.2 ((packXyn_and_F00F _ _ _ _).trans (by decide))⟩
theorem subnVxVy (x y : RegIdx) : Statement (.subnVxVy x y) :=
  ⟨by simp [wordWellFormed_fields, encode] <;> decide, ⟨"SUBN_VX_VY", 0x8007, 0xF00F⟩, by decide, rfl, beq_iff_eq.2 ((packXyn_and_F00F _ _ _ _).trans (by decide))⟩
theorem shlVx (x y : RegIdx) : Statement (.shlVx x y) :=
  ⟨by simp [wordWellFormed_fields, encode] <;> decide, ⟨"SHL_VX", 0x800E, 0xF00F⟩, by decide, rfl, beq_iff_eq.2 ((packXyn_and_F00F _ _ _ _).trans (by decide))⟩
theorem sneVxVy (x y : RegIdx) : Statement (.sneVxVy x y) :=
  ⟨by simp [wordWellFormed_fields, encode], ⟨"SNE_VX_VY", 0x9000, 0xF00F⟩, by decide, rfl, beq_iff_eq.2 ((packXyn_and_F00F _ _ _ _).trans (by decide))⟩
theorem ldINnn (nnn : Addr12) : Statement (.ldINnn nnn) :=
  ⟨by simp [wordWellFormed_fields, encode], ⟨"LD_I_NNN", 0xA000, 0xF000⟩, by decide, rfl, beq_iff_eq.2 ((packNnn_and_F000 _ _).trans (by decide))⟩
theorem jpV0Nnn (nnn : Addr12) : Statement (.jpV0Nnn nnn) :=
  ⟨by simp [wordWellFormed_fields, encode], ⟨"JP_V0_NNN", 0xB000, 0xF000⟩, by decide, rfl, beq_iff_eq.2 ((packNnn_and_F000 _ _).trans (by decide))⟩
theorem rndVxKk (x : RegIdx) (kk : Byte) : Statement (.rndVxKk x kk) :=
  ⟨by simp [wordWellFormed_fields, encode], ⟨"RND_VX_KK", 0xC000, 0xF000⟩, by decide, rfl, beq_iff_eq.2 ((packXkk_and_F000 _ _ _).trans (by decide))⟩
theorem drwVxVyN (x y : RegIdx) (n : Fin 16) : Statement (.drwVxVyN x y n) :=
  ⟨by simp [wordWellFormed_fields, encode], ⟨"DRW_VX_VY_N", 0xD000, 0xF000⟩, by decide, rfl, beq_iff_eq.2 ((packXyn_and_F000 _ _ _ _).trans (by decide))⟩
theorem skpVx (x : RegIdx) : Statement (.skpVx x) :=
  ⟨by simp [wordWellFormed_fields, encode], ⟨"SKP_VX", 0xE09E, 0xF0FF⟩, by decide, rfl, beq_iff_eq.2 ((packXkk_and_F0FF _ _ _).trans (by decide))⟩
theorem sknpVx (x : RegIdx) : Statement (.sknpVx x) :=
  ⟨by simp [wordWellFormed_fields, encode], ⟨"SKNP_VX", 0xE0A1, 0xF0FF⟩, by decide, rfl, beq_iff_eq.2 ((packXkk_and_F0FF _ _ _).trans (by decide))⟩
theorem ldVxDt (x : RegIdx) : Statement (.ldVxDt x) :=
  ⟨by simp [wordWellFormed_fields, encode], ⟨"LD_VX_DT", 0xF007, 0xF0FF⟩, by decide, rfl, beq_iff_eq.2 ((packXkk_and_F0FF _ _ _).trans (by decide))⟩
theorem ldVxK (x : RegIdx) : Statement (.ldVxK x) :=
  ⟨by simp [wordWellFormed_fields, encode], ⟨"LD_VX_K", 0xF00A, 0xF0FF⟩, by decide, rfl, beq_iff_eq.2 ((packXkk_and_F0FF _ _ _).trans (by decide))⟩
theorem ldDtVx (x : RegIdx) : Statement (.ldDtVx x) :=
  ⟨by simp [wordWellFormed_fields, encode], ⟨"LD_DT_VX", 0xF015, 0xF0FF⟩, by decide, rfl, beq_iff_eq.2 ((packXkk_and_F0FF _ _ _).trans (by decide))⟩
theorem ldStVx (x : RegIdx) : Statement (.ldStVx x) :=
  ⟨by simp [wordWellFormed_fields, encode], ⟨"LD_ST_VX", 0xF018, 0xF0FF⟩, by decide, rfl, beq_iff_eq.2 ((packXkk_and_F0FF _ _ _).trans (by decide))⟩
theorem addIVx (x : RegIdx) : Statement (.addIVx x) :=
  ⟨by simp [wordWellFormed_fields, encode], ⟨"ADD_I_VX", 0xF01E, 0xF0FF⟩, by decide, rfl, beq_iff_eq.2 ((packXkk_and_F0FF _ _ _).trans (by decide))⟩
theorem ldFVx (x : RegIdx) : Statement (.ldFVx x) :=
  ⟨by simp [wordWellFormed_fields, encode], ⟨"LD_F_VX", 0xF029, 0xF0FF⟩, by decide, rfl, beq_iff_eq.2 ((packXkk_and_F0FF _ _ _).trans (by decide))⟩
theorem ldBVx (x : RegIdx) : Statement (.ldBVx x) :=
  ⟨by simp [wordWellFormed_fields, encode], ⟨"LD_B_VX", 0xF033, 0xF0FF⟩, by decide, rfl, beq_iff_eq.2 ((packXkk_and_F0FF _ _ _).trans (by decide))⟩
theorem ldMemVx (x : RegIdx) : Statement (.ldMemVx x) :=
  ⟨by simp [wordWellFormed_fields, encode], ⟨"LD_MEM_VX", 0xF055, 0xF0FF⟩, by decide, rfl, beq_iff_eq.2 ((packXkk_and_F0FF _ _ _).trans (by decide))⟩
theorem ldVxMem (x : RegIdx) : Statement (.ldVxMem x) :=
  ⟨by simp [wordWellFormed_fields, encode], ⟨"LD_VX_MEM", 0xF065, 0xF0FF⟩, by decide, rfl, beq_iff_eq.2 ((packXkk_and_F0FF _ _ _).trans (by decide))⟩

end Sys2Proof.Laws.RowMatch
end

