-- ==== Sys2Proof/Laws/Step.lean ====
section
/-! SUPPORT. What a step and a run of steps answer, once, and what a store at I leaves: callers cite these instead of unfolding `step`,
`Core.run` and `storeBytes`. -/

namespace Sys2Proof.Machine

theorem step_of_halted {s : State} (h : halted s) : step s = .next s := by simp [step, h]

theorem step_of_decode_error {s : State} {e : DecodeReject} (h : ¬ halted s) (hd : decodeWord (fetch s) = .error e) :
    step s = .next (takeFault .decodeError s.pc (fetch s) s) := by
  simp only [step, if_neg h, hd]

theorem step_of_exec {s t : State} {i : Instr} (h : ¬ halted s) (hd : decodeWord (fetch s) = .ok i)
    (he : exec i (advancePc s) = .next t) : step s = .next (finish t) := by
  simp only [step, if_neg h, hd, he, finishOutcome]

/-- The same for a meaning that leaves the latch clear: the timers decay and the inputs move on. -/
theorem step_of_safe_exec {s t : State} {i : Instr} (h : ¬ halted s) (hd : decodeWord (fetch s) = .ok i)
    (he : exec i (advancePc s) = .next t) (ht : ¬ halted t) : step s = .next (advanceInputs (decayTimers t)) := by
  rw [step_of_exec h hd he, finish_of_safe ht]

theorem core_run_zero (s : State) : core.run 0 s = .next s := rfl

/-- One step of a run, for any machine behind the host's interface. -/
theorem run_succ_of_step (M : Host.Core) (k : Nat) {s t : M.State} (h : M.step s = .next t) : M.run (k + 1) s = M.run k t := by
  rw [Host.Core.run, h]

theorem core_run_succ {s t : State} (k : Nat) (h : step s = .next t) : core.run (k + 1) s = core.run k t :=
  run_succ_of_step core k h

theorem fetch_finish (s : State) : fetch (finish s) = fetch s := by
  unfold finish; split <;> rfl

/-! ## Stores at I (R196) -/

theorem effAddr_zero_add (s : State) (k : Nat) : effAddr s 0 + BitVec.ofNat 16 k = effAddr s k := by simp [effAddr]

/-- A block stored at I leaves every byte outside it alone. -/
theorem memRead_store_outsideBlock (s : State) (bs : List Byte) (a : Word) (h : OutsideBlock s bs.length a) :
    memRead a (storeBytes (effAddr s 0) bs s) = memRead a s :=
  memRead_storeBytes_outside bs _ a s (fun k hk => by rw [effAddr_zero_add]; exact (h k hk).symm)

end Sys2Proof.Machine
end

