-- ==== Sys2Proof/Tests/Slice0.lean ====
section
/-! SUPPORT. Tests. Every expected value is from the spec: the words from the patterns and bit fields of 30_encoding.md R91 to R94, the
effects from the vectors of 95_test_vectors.md, named by their numbers T<n> and S<n>. Last come the witnesses that the statements'
hypotheses can be met. -/

namespace Sys2Proof.Tests

open Sys2Proof Sys2Proof.Machine

/-! ## Helpers -/

/-- The outcome is a next state with the property. -/
def nextIs (o : Host.Outcome State Fault Refusal) (p : State → Bool) : Bool :=
  match o with
  | .next s => p s
  | .fault _ => false
  | .refused _ => false

/-- One step after the word `w` was placed where `s` fetches. -/
def after (w : Nat) (s : State) (p : State → Bool) : Bool := nextIs (step (s.withFetchWord 16 w)) p

/-- The reset state with some registers set and I. -/
def start (regs : List (RegIdx × Byte)) (i : Word := 0) : State :=
  regs.foldl (fun s r => setV r.1 r.2 s) { State.reset with i := i }

/-- The state with bytes stored at an address and up. -/
def poke (a : Word) (bytes : List Byte) (s : State) : State := storeBytes a bytes s

/-- The bytes at `a`, `a + 1`, ... are these. -/
def holds (a : Word) (bytes : List Byte) (s : State) : Bool :=
  bytes == (List.range bytes.length).map (fun k => memRead (a + BitVec.ofNat 16 k) s)

/-- The registers hold these values. -/
def regsAre (regs : List (RegIdx × Byte)) (s : State) : Bool := regs.all (fun r => getV r.1 s == r.2)

/-- The latch holds this record. -/
def latchIs (c : FaultCause) (fpc fop : Word) (s : State) : Bool := s.fault == { cause := c, fpc := fpc, fop := fop }

/-! ## WellFormed: each check refuses an ill-formed word (R97) -/

theorem smoke_family0 : wordWellFormed 0x0123 = false ∧ wordWellFormed 0x0000 = false ∧ wordWellFormed 0x00E1 = false := by decide
theorem smoke_family5 : wordWellFormed 0x5011 = false ∧ wordWellFormed 0x5010 = true := by decide
theorem smoke_family8 : wordWellFormed 0x8018 = false ∧ wordWellFormed 0x801F = false ∧ wordWellFormed 0x801E = true := by decide
theorem smoke_family9 : wordWellFormed 0x9AB8 = false ∧ wordWellFormed 0x9AB0 = true := by decide
theorem smoke_familyE : wordWellFormed 0xE09F = false ∧ wordWellFormed 0xE19E = true := by decide
theorem smoke_familyF : wordWellFormed 0xF000 = false ∧ wordWellFormed 0xF075 = false ∧ wordWellFormed 0xF165 = true := by decide
theorem smoke_rejected_by_name :
    decodeTableWord 16 0x00FE = none ∧ decodeWord 0x00FE = .error .unlistedFamily0 ∧ decodeWord 0x5011 = .error .nonzeroLowNibble ∧
    decodeWord 0x8018 = .error .unlistedFamily8 ∧ decodeWord 0x9AB8 = .error .nonzeroLowNibble ∧
    decodeWord 0xE09F = .error .unlistedFamilyE ∧ decodeWord 0xF075 = .error .unlistedFamilyF ∧
    decodeBytes [0x12] = .error .truncated := ⟨rfl, rfl, rfl, rfl, rfl, rfl, rfl, rfl⟩

/-! ## Decode: a word for every constructor, written out from its pattern -/

theorem test_decode_fixed : decodeWord 0x00E0 = .ok .cls ∧ decodeWord 0x00EE = .ok .ret := ⟨rfl, rfl⟩
theorem test_decode_nnn :
    decodeWord 0x1FFF = .ok (.jp 0xFFF) ∧ decodeWord 0x220A = .ok (.call 0x20A) ∧ decodeWord 0xA123 = .ok (.ldINnn 0x123) ∧
    decodeWord 0xB304 = .ok (.jpV0Nnn 0x304) := ⟨rfl, rfl, rfl, rfl⟩
theorem test_decode_xkk :
    decodeWord 0x3342 = .ok (.seVxKk 3 0x42) ∧ decodeWord 0x4A01 = .ok (.sneVxKk 10 0x01) ∧ decodeWord 0x60EA = .ok (.ldVxKk 0 0xEA) ∧
    decodeWord 0x71FF = .ok (.addVxKk 1 0xFF) ∧ decodeWord 0xCFF0 = .ok (.rndVxKk 15 0xF0) := ⟨rfl, rfl, rfl, rfl, rfl⟩
theorem test_decode_xy :
    decodeWord 0x5340 = .ok (.seVxVy 3 4) ∧ decodeWord 0x8230 = .ok (.ldVxVy 2 3) ∧ decodeWord 0x8011 = .ok (.orVxVy 0 1) ∧
    decodeWord 0x8AB2 = .ok (.andVxVy 10 11) ∧ decodeWord 0x8223 = .ok (.xorVxVy 2 2) ∧ decodeWord 0x80F4 = .ok (.addVxVy 0 15) ∧
    decodeWord 0x8F15 = .ok (.subVxVy 15 1) ∧ decodeWord 0x8236 = .ok (.shrVx 2 3) ∧ decodeWord 0x8017 = .ok (.subnVxVy 0 1) ∧
    decodeWord 0x823E = .ok (.shlVx 2 3) ∧ decodeWord 0x9350 = .ok (.sneVxVy 3 5) :=
  ⟨rfl, rfl, rfl, rfl, rfl, rfl, rfl, rfl, rfl, rfl, rfl⟩
theorem test_decode_xyn : decodeWord 0xDFF1 = .ok (.drwVxVyN 15 15 1) ∧ decodeWord 0xD015 = .ok (.drwVxVyN 0 1 5) := ⟨rfl, rfl⟩
theorem test_decode_x :
    decodeWord 0xE19E = .ok (.skpVx 1) ∧ decodeWord 0xE0A1 = .ok (.sknpVx 0) ∧ decodeWord 0xF107 = .ok (.ldVxDt 1) ∧
    decodeWord 0xF50A = .ok (.ldVxK 5) ∧ decodeWord 0xF015 = .ok (.ldDtVx 0) ∧ decodeWord 0xF318 = .ok (.ldStVx 3) ∧
    decodeWord 0xF11E = .ok (.addIVx 1) ∧ decodeWord 0xFA29 = .ok (.ldFVx 10) ∧ decodeWord 0xF033 = .ok (.ldBVx 0) ∧
    decodeWord 0xFF55 = .ok (.ldMemVx 15) ∧ decodeWord 0xF265 = .ok (.ldVxMem 2) :=
  ⟨rfl, rfl, rfl, rfl, rfl, rfl, rfl, rfl, rfl, rfl, rfl⟩
theorem test_table_word : decodeTableWord 16 0xD015 = some (.drwVxVyN 0 1 5) ∧ decodeTableWord 16 0x00EE = some .ret := ⟨rfl, rfl⟩

/-! ## The step -/

/-- T1: reset with nothing loaded. -/
theorem test_T1 : nextIs (step State.reset) (fun t => latchIs .decodeError 0x0200 0x0000 t && t.pc == 0x0200) = true := by decide
/-- T13: a rejected step does not decay the timers. -/
theorem test_T13 : nextIs (step { State.reset with dt := 5, st := 5 })
    (fun t => latchIs .decodeError 0x0200 0x0000 t && t.dt == 5 && t.st == 5) = true := by decide
/-- T14: a halted machine changes nothing. -/
theorem test_T14 : nextIs (step { State.reset with dt := 5, fault := ⟨.decodeError, 0x0200, 0x0000⟩ })
    (fun t => latchIs .decodeError 0x0200 0x0000 t && t.dt == 5 && t.pc == 0x0200 && t.inputIndex == 0) = true := by decide
/-- T15: the fetch wraps from 0xFFF to 0x000. -/
theorem test_T15 : nextIs (step (poke 0x0FFF [0x12, 0x34] { State.reset with pc := 0x0FFF })) (fun t => t.pc == 0x0234) = true := by decide
/-- T16: the fetch address is masked. -/
theorem test_T16 : nextIs (step (poke 0x0200 [0x61, 0x55] { State.reset with pc := 0x1200 }))
    (fun t => regsAre [(1, 0x55)] t && t.pc == 0x1202) = true := by decide
/-- T17: the advance wraps. -/
theorem test_T17 : nextIs (step (poke 0x0FFE [0x61, 0x55] { State.reset with pc := 0xFFFE }))
    (fun t => regsAre [(1, 0x55)] t && t.pc == 0x0000) = true := by decide
/-- T18: an odd pc. -/
theorem test_T18 : nextIs (step (poke 0x0201 [0x62, 0x07] { State.reset with pc := 0x0201 }))
    (fun t => regsAre [(2, 0x07)] t && t.pc == 0x0203) = true := by decide

/-! ## Display -/

/-- T30. -/
theorem test_cls_T30 : after 0x00E0 { start [(15, 7)] with fb := flipPixel (flipPixel Framebuffer.clear 0 0) 63 31 }
    (fun t => !getPixel t.fb 0 0 && !getPixel t.fb 63 31 && regsAre [(15, 7)] t && t.pc == 0x0202) = true := by decide
/-- T33: the sprite's second row comes from the masked address 0x000. -/
theorem test_drw_T33 : after 0xD012 (poke 0x0FFF [0x80, 0x40] (start [] 0x0FFF))
    (fun t => getPixel t.fb 0 0 && getPixel t.fb 1 1 && !getPixel t.fb 1 0 && !getPixel t.fb 0 1 && regsAre [(15, 0)] t &&
      t.i == 0x0FFF) = true := by decide
/-- T34: the origin is from the old VF, and the collision sets VF. -/
theorem test_drw_T34 : after 0xDFF1 (poke 0x0300 [0xC0] { start [(15, 1)] 0x0300 with fb := flipPixel Framebuffer.clear 1 1 })
    (fun t => !getPixel t.fb 1 1 && getPixel t.fb 2 1 && regsAre [(15, 1)] t) = true := by decide

/-! ## Control flow -/

/-- T50. -/
theorem test_jp_T50 : after 0x1FFF State.reset (fun t => t.pc == 0x0FFF) = true := by decide
/-- T53: a 16-bit return address is kept. -/
theorem test_call_T53 : after 0x2300 { State.reset with pc := 0x0FFE }
    (fun t => t.stack[0] == 0x1000 && t.sp == 1 && t.pc == 0x0300) = true := by decide
/-- T54. -/
theorem test_call_T54 : after 0x2300 { State.reset with sp := 16 }
    (fun t => latchIs .stackOverflow 0x0200 0x2300 t && t.sp == 16 && t.pc == 0x0200) = true := by decide
/-- T56. -/
theorem test_ret_T56 : after 0x00EE State.reset
    (fun t => latchIs .stackUnderflow 0x0200 0x00EE t && t.sp == 0 && t.pc == 0x0200) = true := by decide
/-- T57. -/
theorem test_ret_T57 : after 0x00EE { State.reset with sp := 2, stack := (State.reset.stack.set 0 0x0222).set 1 0x0ABD }
    (fun t => t.pc == 0x0ABD && t.sp == 1) = true := by decide
/-- T58, T59. -/
theorem test_se_kk_T58_T59 : after 0x3342 (start [(3, 0x42)]) (fun t => t.pc == 0x0204) = true ∧
    after 0x3343 (start [(3, 0x42)]) (fun t => t.pc == 0x0202) = true := by decide
/-- T60, T61. -/
theorem test_sne_kk_T60_T61 : after 0x4342 (start [(3, 0x42)]) (fun t => t.pc == 0x0202) = true ∧
    after 0x4343 (start [(3, 0x42)]) (fun t => t.pc == 0x0204) = true := by decide
/-- T62, T63. -/
theorem test_se_reg_T62_T63 : after 0x5340 (start [(3, 0x42), (4, 0x42), (5, 1)]) (fun t => t.pc == 0x0204) = true ∧
    after 0x5350 (start [(3, 0x42), (4, 0x42), (5, 1)]) (fun t => t.pc == 0x0202) = true := by decide
/-- T65, T66. -/
theorem test_sne_reg_T65_T66 : after 0x9340 (start [(3, 0x42), (4, 0x42), (5, 1)]) (fun t => t.pc == 0x0202) = true ∧
    after 0x9350 (start [(3, 0x42), (4, 0x42), (5, 1)]) (fun t => t.pc == 0x0204) = true := by decide
/-- T68. -/
theorem test_jp_v0_T68 : after 0xBFFF (start [(0, 0xFF)]) (fun t => t.pc == 0x10FE) = true := by decide
/-- T69: V0 is the addend, not V3. -/
theorem test_jp_v0_T69 : after 0xB304 (start [(0, 0x04), (3, 0x80)]) (fun t => t.pc == 0x0308) = true := by decide

/-! ## ALU -/

/-- T80. -/
theorem test_ld_kk_T80 : after 0x60EA State.reset (regsAre [(0, 0xEA), (1, 0)]) = true := by decide
/-- T82: no carry is reported. -/
theorem test_add_kk_T82 : after 0x7102 (start [(1, 0xFF)]) (regsAre [(1, 0x01), (15, 0)]) = true := by decide
/-- T85. -/
theorem test_ld_reg_T85 : after 0x8230 (start [(3, 0x2A)]) (regsAre [(2, 0x2A), (3, 0x2A)]) = true := by decide
/-- T86: VF is not cleared. -/
theorem test_or_T86 : after 0x8011 (start [(0, 0xF0), (1, 0x0F), (15, 1)]) (regsAre [(0, 0xFF), (1, 0x0F), (15, 1)]) = true := by decide
/-- T87. -/
theorem test_and_T87 : after 0x8012 (start [(0, 0xF0), (1, 0x3C)]) (regsAre [(0, 0x30), (1, 0x3C)]) = true := by decide
/-- T88. -/
theorem test_xor_T88 : after 0x8013 (start [(0, 0xF0), (1, 0x3C)]) (regsAre [(0, 0xCC), (1, 0x3C)]) = true := by decide
/-- T91: a sum of 255 is no carry. -/
theorem test_add_T91 : after 0x8014 (start [(0, 0xFF), (1, 0x00)]) (regsAre [(0, 0xFF), (15, 0)]) = true := by decide
/-- T95: with x = F the carry remains. -/
theorem test_add_T95 : after 0x8F14 (start [(15, 0xC8), (1, 0x64)]) (regsAre [(15, 1), (1, 0x64)]) = true := by decide
/-- T98. -/
theorem test_sub_T98 : after 0x8015 (start [(0, 0x05), (1, 0x0A)]) (regsAre [(0, 0xFB), (15, 0)]) = true := by decide
/-- T99: equal operands give flag 0. -/
theorem test_sub_T99 : after 0x8015 (start [(0, 0x07), (1, 0x07), (15, 1)]) (regsAre [(0, 0x00), (15, 0)]) = true := by decide
/-- T105: Vy is ignored. -/
theorem test_shr_T105 : after 0x8236 (start [(2, 0x04), (3, 0xFF)]) (regsAre [(2, 0x02), (15, 0), (3, 0xFF)]) = true := by decide
/-- T107: zero enters bit 7. -/
theorem test_shr_T107 : after 0x8206 (start [(2, 0xFF)]) (regsAre [(2, 0x7F), (15, 1)]) = true := by decide
/-- T110. -/
theorem test_subn_T110 : after 0x8017 (start [(0, 0x05), (1, 0x0A)]) (regsAre [(0, 0x05), (15, 1)]) = true := by decide
/-- T113. -/
theorem test_subn_T113 : after 0x8F17 (start [(15, 0x09), (1, 0x05)]) (regsAre [(15, 0)]) = true := by decide
/-- T114. -/
theorem test_shl_T114 : after 0x820E (start [(2, 0x81)]) (regsAre [(2, 0x02), (15, 1)]) = true := by decide
/-- T115. -/
theorem test_shl_T115 : after 0x823E (start [(2, 0x40), (3, 0xFF)]) (regsAre [(2, 0x80), (15, 0), (3, 0xFF)]) = true := by decide

/-! ## Index register and memory -/

/-- T131. -/
theorem test_ld_i_T131 : after 0xAFFF State.reset (fun t => t.i == 0x0FFF) = true := by decide
/-- T133: no flag, and I keeps 16 bits. -/
theorem test_add_i_T133 : after 0xF11E (start [(1, 0x01)] 0x0FFF) (fun t => t.i == 0x1000 && regsAre [(15, 0)] t) = true := by decide
/-- T134. -/
theorem test_add_i_T134 : after 0xF11E (start [(1, 0x02), (15, 9)] 0xFFFF) (fun t => t.i == 0x0001 && regsAre [(15, 9)] t) = true := by
  decide
/-- T135. -/
theorem test_ld_f_T135 : after 0xFA29 (start [(10, 0x0A)]) (fun t => t.i == 0x0082) = true := by decide
/-- T139: the whole byte counts. -/
theorem test_ld_f_T139 : after 0xF229 (start [(2, 0xFF)]) (fun t => t.i == 0x054B) = true := by decide
/-- T140. -/
theorem test_ld_b_T140 : after 0xF033 (start [(0, 0xEA)] 0x0300) (holds 0x0300 [2, 3, 4]) = true := by decide
/-- T144: each address is masked for itself. -/
theorem test_ld_b_T144 : after 0xF033 (start [(0, 0xFF)] 0x0FFE)
    (fun t => holds 0x0FFE [2, 5] t && holds 0x0000 [5] t && t.i == 0x0FFE) = true := by decide
/-- T145: V3 is not stored, and I stays. -/
theorem test_ld_mem_T145 : after 0xF255 (start [(0, 0x11), (1, 0x22), (2, 0x33), (3, 0x44)] 0x0400)
    (fun t => holds 0x0400 [0x11, 0x22, 0x33, 0x00] t && t.i == 0x0400) = true := by decide
/-- T148. -/
theorem test_ld_mem_T148 : after 0xF355 (start [(0, 0xA1), (1, 0xA2), (2, 0xA3), (3, 0xA4)] 0x0FFE)
    (fun t => holds 0x0FFE [0xA1, 0xA2] t && holds 0x0000 [0xA3, 0xA4] t) = true := by decide
/-- T149: V3 stays. -/
theorem test_ld_regs_T149 : after 0xF265 (poke 0x0300 [2, 3, 4, 5] (start [(3, 0x99)] 0x0300))
    (fun t => regsAre [(0, 2), (1, 3), (2, 4), (3, 0x99)] t && t.i == 0x0300) = true := by decide
/-- T151: the read goes across the start of the font. -/
theorem test_ld_regs_T151 : after 0xF365 (start [] 0x004E) (regsAre [(0, 0x00), (1, 0x00), (2, 0xF0), (3, 0x90)]) = true := by decide

/-! ## Random, keypad, timers -/

/-- T160. -/
theorem test_rnd_T160 : after 0xC10F (supplyInput 0 0xB7 State.reset) (regsAre [(1, 0x07)]) = true := by decide
/-- T163. -/
theorem test_rnd_T163 : after 0xCFF0 (supplyInput 0 0xAB State.reset) (regsAre [(15, 0xA0)]) = true := by decide
/-- T169: the low nibble selects; T166 with its key up. -/
theorem test_skp_T169_T166 : after 0xE09E (supplyInput 0x0400 0 (start [(0, 0x1A)])) (fun t => t.pc == 0x0204) = true ∧
    after 0xE09E (supplyInput 0 0 (start [(0, 0x05)])) (fun t => t.pc == 0x0202) = true := by decide
/-- T167, T168. -/
theorem test_sknp_T167_T168 : after 0xE0A1 (supplyInput 0x0020 0 (start [(0, 0x05)])) (fun t => t.pc == 0x0202) = true ∧
    after 0xE0A1 (supplyInput 0 0 (start [(0, 0x05)])) (fun t => t.pc == 0x0204) = true := by decide
/-- T172: the read comes before the decay. -/
theorem test_ld_dt_T172 : after 0xF107 { State.reset with dt := 2 } (fun t => regsAre [(1, 2)] t && t.dt == 1) = true := by decide
/-- T175: a waiting step is a full step. -/
theorem test_ld_k_T175 : after 0xF30A (supplyInput 0 0 { start [(3, 0x99)] with dt := 2 })
    (fun t => t.pc == 0x0200 && regsAre [(3, 0x99)] t && t.dt == 1) = true := by decide
/-- T176: the lowest key that is down. -/
theorem test_ld_k_T176 : after 0xF30A (supplyInput 0x1080 0 State.reset) (fun t => regsAre [(3, 7)] t && t.pc == 0x0202) = true := by decide
/-- T180: the timer decays in the step that sets it. -/
theorem test_set_dt_T180 : after 0xF015 (start [(0, 3)]) (fun t => t.dt == 2 && t.st == 0) = true := by decide
/-- T182. -/
theorem test_set_dt_T182 : after 0xF015 { State.reset with dt := 5, st := 1 } (fun t => t.dt == 0 && t.st == 0) = true := by decide
/-- T183. -/
theorem test_set_st_T183 : after 0xF018 (start [(0, 0xFF)]) (fun t => t.st == 0xFE && t.dt == 0) = true := by decide

/-! ## The host's operations -/

/-- S9: a loaded image stands at 0x200, the font and the zeros stay. -/
theorem test_load_S9 : (hostLoad [0x12, 0x34, 0x56] State.reset).1 = .ok ∧
    holds 0x01FF [0x00, 0x12, 0x34, 0x56, 0x00] (hostLoad [0x12, 0x34, 0x56] State.reset).2 = true ∧
    holds 0x0050 [0xF0] (hostLoad [0x12, 0x34, 0x56] State.reset).2 = true := by decide

/-! ## Witnesses: states and operands that meet each statement's hypotheses, clause by clause, at the boundaries of the ranges -/

/-- A checked outcome as an equation. -/
theorem next_of {o : Host.Outcome State Fault Refusal} {p : State → Bool} (h : nextIs o p = true) : ∃ t, o = .next t ∧ p t = true := by
  cases o with
  | next s => exact ⟨s, rfl, h⟩
  | fault _ => cases h
  | refused _ => cases h

/-- And back: what was checked of an outcome holds of the state it answers. -/
theorem of_next {o : Host.Outcome State Fault Refusal} {p : State → Bool} {t : State} (h : nextIs o p = true) (ho : o = .next t) :
    p t = true := by rw [ho] at h; exact h

/-- The reset state with a word placed where it fetches. -/
def ready (w : Nat) : State := State.reset.withFetchWord 16 w

/-- A halted state: the record of T14. -/
def stopped : State := { State.reset with dt := 5, fault := ⟨.decodeError, 0x0200, 0x0000⟩ }

theorem witness_EncodeDecodeRoundTrip : decodeWord 0x8AF6 = .ok (.shrVx 10 15) := rfl

theorem witness_DecoderAgreesWithOpcodeTable :
    (∃ r ∈ opcodeTable, rowSelects r 0x8AF6 = true ∧ r.mnemonic = "SHR_VX") ∧ (∀ r ∈ opcodeTable, rowSelects r 0x8018 = false) ∧
    decodeWord 0x8018 = .error .unlistedFamily8 := ⟨by decide, by decide, rfl⟩

/-- A running machine before a word that completes, and one before a word that faults. -/
theorem witness_StepRunsDecodedInstruction :
    (¬ halted (ready 0x6005) ∧ decodeWord (fetch (ready 0x6005)) = .ok (.ldVxKk 0 5) ∧
      ∃ t, exec (.ldVxKk 0 5) { ready 0x6005 with pc := (ready 0x6005).pc + 2 } = .next t ∧ decide (halted t) = false) ∧
    (¬ halted (ready 0x00EE) ∧ decodeWord (fetch (ready 0x00EE)) = .ok .ret ∧
      ∃ t, exec .ret { ready 0x00EE with pc := (ready 0x00EE).pc + 2 } = .next t ∧ decide (halted t) = true) :=
  ⟨⟨by decide, rfl, next_of (p := fun t => !decide (halted t)) (by decide) |>.imp fun _ h => ⟨h.1, by simpa using h.2⟩⟩,
    ⟨by decide, rfl, next_of (p := fun t => decide (halted t)) (by decide)⟩⟩

theorem witness_HaltedStepChangesNothing : halted stopped := by decide

theorem witness_IllegalWordRaisesDecodeError :
    (¬ halted State.reset ∧ ∀ r ∈ opcodeTable, rowSelects r (fetch State.reset) = false) ∧
    (¬ halted (ready 0x5011) ∧ ∀ r ∈ opcodeTable, rowSelects r (fetch (ready 0x5011)) = false) := by decide

/-- T2 and T54. -/
theorem witness_FaultingStepIsPrecise :
    (¬ halted (ready 0x0123) ∧ ∃ t, step (ready 0x0123) = .next t ∧ decide (halted t) = true) ∧
    (¬ halted { ready 0x2300 with sp := 16 } ∧ ∃ t, step { ready 0x2300 with sp := 16 } = .next t ∧ decide (halted t) = true) :=
  ⟨⟨by decide, next_of (p := fun t => decide (halted t)) (by decide)⟩, ⟨by decide, next_of (p := fun t => decide (halted t)) (by decide)⟩⟩

/-- Each clause, the stack clauses on both sides of their boundaries: T7, T56, SP = 1, T54, T55, T80. -/
theorem witness_StepFaultsExactlyWhen :
    ¬ halted State.reset ∧
    nextIs (step (ready 0x8018)) (fun t => t.fault.cause == .decodeError && causeCode t.fault.cause == 1) = true ∧
    nextIs (step (ready 0x00EE)) (fun t => t.fault.cause == .stackUnderflow && causeCode t.fault.cause == 2) = true ∧
    nextIs (step { ready 0x00EE with sp := 1 }) (fun t => t.fault.cause == .none && causeCode t.fault.cause == 0) = true ∧
    nextIs (step { ready 0x2300 with sp := 16 }) (fun t => t.fault.cause == .stackOverflow && causeCode t.fault.cause == 3) = true ∧
    nextIs (step { ready 0x2300 with sp := 15 }) (fun t => t.fault.cause == .none && causeCode t.fault.cause == 0) = true ∧
    nextIs (step (ready 0x60EA)) (fun t => t.fault.cause == .none && causeCode t.fault.cause == 0) = true := by decide

/-- T182 (Fx15), T183 (Fx18) and a step that sets no timer. -/
theorem witness_TimersDecayOncePerCompletedStep :
    ((¬ halted { ready 0xF015 with dt := 5, st := 1 } ∧ decodeWord (fetch { ready 0xF015 with dt := 5, st := 1 }) = .ok (.ldDtVx 0)) ∧
      ∃ t, step { ready 0xF015 with dt := 5, st := 1 } = .next t ∧ (!decide (halted t)) = true) ∧
    ((¬ halted (ready 0xF018) ∧ decodeWord (fetch (ready 0xF018)) = .ok (.ldStVx 0)) ∧
      ∃ t, step (ready 0xF018) = .next t ∧ (!decide (halted t)) = true) ∧
    ((¬ halted { ready 0x6000 with dt := 3, st := 1 } ∧ decodeWord (fetch { ready 0x6000 with dt := 3, st := 1 }) = .ok (.ldVxKk 0 0)) ∧
      ∃ t, step { ready 0x6000 with dt := 3, st := 1 } = .next t ∧ (!decide (halted t)) = true) :=
  ⟨⟨⟨by decide, rfl⟩, next_of (p := fun t => !decide (halted t)) (by decide)⟩,
    ⟨⟨by decide, rfl⟩, next_of (p := fun t => !decide (halted t)) (by decide)⟩,
    ⟨⟨by decide, rfl⟩, next_of (p := fun t => !decide (halted t)) (by decide)⟩⟩

/-- The invariant holds of a state with a stored word, of a halted one, and of a full stack that a call has overflowed. -/
theorem witness_StepKeepsInvariant :
    (Inv (ready 0xF033) ∧ ∃ t, step (ready 0xF033) = .next t ∧ true = true) ∧ Inv { stopped with fault := ⟨.decodeError, 0x0200, 0x0123⟩ } ∧
    Inv { State.reset with sp := 16, fault := ⟨.stackOverflow, 0x0200, 0x2300⟩ } := by
  refine ⟨⟨⟨by decide, rfl, rfl⟩, next_of (p := fun _ => true) (by decide)⟩, ⟨by decide, rfl, rfl⟩, ⟨by decide, rfl, rfl, rfl⟩⟩

theorem witness_HostOperationsKeepInvariant : Inv (ready 0x1200) := ⟨by decide, rfl, rfl⟩

/-- Two different states that agree modulo 4096, with a step that reads through I. -/
theorem witness_BehaviourDependsOnLowTwelveBits :
    AgreeLow12 (ready 0xF165) { ready 0xF165 with i := 0x3000, pc := 0xF200 } ∧
    ready 0xF165 ≠ { ready 0xF165 with i := 0x3000, pc := 0xF200 } ∧ ∃ t, step (ready 0xF165) = .next t ∧ true = true := by
  refine ⟨⟨rfl, rfl, fun _ => rfl, rfl, rfl, rfl, rfl, rfl, rfl, rfl, rfl, rfl, rfl, rfl, rfl⟩, fun h => ?_, next_of (p := fun _ => true) (by decide)⟩
  exact absurd (congrArg State.i h) (by decide)

/-- Each clause: a byte just past a store of four (Fx55) and of three (Fx33), with the last stored byte inside; stack entries beside the
one a call writes, and all of them at SP = 16; Fx0A with and without a key. -/
theorem witness_AccessMatrixIsRespected :
    (∃ t, exec (.ldMemVx 3) (start [(0, 1), (3, 4)] 0x0FFE) = .next t ∧ true = true) ∧
    OutsideBlock (start [] 0x0FFE) (writtenBytes (.ldMemVx 3)) 0x0002 ∧ ¬ OutsideBlock (start [] 0x0FFE) (writtenBytes (.ldMemVx 3)) 0x0001 ∧
    OutsideBlock (start [] 0x0300) (writtenBytes (.ldBVx 0)) 0x0303 ∧ ¬ OutsideBlock (start [] 0x0300) (writtenBytes (.ldBVx 0)) 0x0302 ∧
    (∃ t, exec (.call 0x300) { State.reset with sp := 15 } = .next t ∧ true = true) ∧ (14 : Fin 16).val ≠ ({ State.reset with sp := 15 } : State).sp.val ∧
    (∀ k : Fin 16, k.val ≠ ({ State.reset with sp := 16 } : State).sp.val) ∧
    keysNow (supplyInput 0 0 State.reset) = 0 ∧ keysNow (supplyInput 0x8000 0 State.reset) ≠ 0 := by
  refine ⟨next_of (p := fun _ => true) (by decide), ?_, ?_, ?_, ?_, next_of (p := fun _ => true) (by decide), by decide, by decide,
    by decide, by decide⟩ <;> unfold OutsideBlock <;> decide

/-- A jump with two different key states and random bytes; a key skip with one key state and two random bytes; RND the other way round. -/
theorem witness_InputsReachOnlyTheirReaders :
    ((readsKeys (.jp 0x200) = true → (1 : BitVec 16) = 2) ∧ (readsRnd (.jp 0x200) = true → (1 : Byte) = 2)) ∧
    ((readsKeys (.skpVx 0) = true → (1 : BitVec 16) = 1) ∧ (readsRnd (.skpVx 0) = true → (1 : Byte) = 2)) ∧
    ((readsKeys (.rndVxKk 0 1) = true → (1 : BitVec 16) = 2) ∧ (readsRnd (.rndVxKk 0 1) = true → (1 : Byte) = 1)) := by decide

/-- The second half: each of the six at an x that is not F. -/
theorem witness_FlagTable :
    (0 : RegIdx) ≠ 15 ∧ ∀ i ∈ [Instr.ldVxKk 0 9, .addVxKk 0 9, .ldVxVy 0 1, .orVxVy 0 1, .andVxVy 0 1, .xorVxVy 0 1],
      nextIs (exec i (start [(0, 0xFF), (1, 0x81), (15, 7)])) (regsAre [(15, 7)]) = true := by decide

/-- The states of T37 (a collision) and T36 (none). -/
theorem witness_DrawSprite :
    (∃ px py, SpriteCovers 0 1 1 (poke 0x0300 [0xA0] (start [] 0x0300)) px py ∧ getPixel (flipPixel Framebuffer.clear 0 0) px py = true) ∧
    (¬ ∃ px py, SpriteCovers 0 1 1 (poke 0x0300 [0x00] (start [] 0x0300)) px py ∧ getPixel (flipPixel Framebuffer.clear 0 0) px py = true) := by
  refine ⟨⟨0, 0, ⟨0, by decide, 0, by decide, by decide⟩, by decide⟩, ?_⟩
  rintro ⟨px, py, ⟨r, hr, c, hc, hb, -⟩, -⟩
  have h : ∀ c < 8, (memRead ((poke 0x0300 [0x00] (start [] 0x0300)).i + BitVec.ofNat 16 0)
    (poke 0x0300 [0x00] (start [] 0x0300))).getLsbD (7 - c) = false := by decide
  obtain rfl : r = 0 := by omega
  exact absurd hb (by rw [h c hc]; decide)

theorem witness_DoubleDrawRestores : (0 : RegIdx) ≠ 15 ∧ (1 : RegIdx) ≠ 15 := by decide

/-- SP = 1 and SP = 16 pop, SP = 0 does not. -/
theorem witness_ReturnPops :
    (({ State.reset with sp := 1 } : State).sp.val = (0 : Fin 16).val + 1) ∧
    (({ State.reset with sp := 16 } : State).sp.val = (15 : Fin 16).val + 1) ∧ State.reset.sp.val = 0 := by decide

/-- SP = 0 and SP = 15 push, SP = 16 does not. -/
theorem witness_CallPushes :
    State.reset.sp.val = (0 : Fin 16).val ∧ (({ State.reset with sp := 15 } : State).sp.val = (15 : Fin 16).val) ∧
    (({ State.reset with sp := 16 } : State).sp.val = 16) := by decide

/-- S5: 2300 at 0x200 and 00EE at 0x300, here with one entry already on the stack. -/
def callThenReturn : State := poke 0x0300 [0x00, 0xEE] { ready 0x2300 with sp := 1 }

theorem witness_CallThenReturnComesBack :
    ¬ halted callThenReturn ∧ callThenReturn.sp.val < 16 ∧ (0 : Fin 16).val < callThenReturn.sp.val ∧
    decodeWord (fetch callThenReturn) = .ok (.call 0x300) ∧
    ∃ t, step callThenReturn = .next t ∧ decodeWord (fetch t) = .ok .ret ∧ ∃ u, step t = .next u ∧ (u.pc == 0x0202) = true := by
  refine ⟨by decide, by decide, by decide, rfl, ?_⟩
  have h : nextIs (step callThenReturn) (fun t => decide (fetch t = 0x00EE) && nextIs (step t) (fun u => u.pc == 0x0202)) = true := by
    decide
  obtain ⟨t, ht, hp⟩ := next_of h
  have hp := Bool.and_eq_true_iff.1 hp
  exact ⟨t, ht, by rw [of_decide_eq_true hp.1]; rfl, next_of hp.2⟩

/-- T51: any immediate of the jump, here the reset pc. -/
theorem witness_JumpToSelfIsFixedPoint :
    ¬ halted (ready 0x1200) ∧ decodeWord (fetch (ready 0x1200)) = .ok (.jp 0x200) ∧ (ready 0x1200).pc.toNat = (0x200 : Addr12).toNat ∧
    (ready 0x1200).dt = 0 ∧ (ready 0x1200).st = 0 := ⟨by decide, rfl, rfl, rfl, rfl⟩

theorem witness_AddWithCarry : (0 : RegIdx) ≠ 15 := by decide
theorem witness_SubtractBothWays : (0 : RegIdx) ≠ 15 := by decide
theorem witness_ShiftByOne : (2 : RegIdx) ≠ 15 := by decide

/-- The frame of a store across the end of memory: the bytes just before and just after it, the latter also under its alias 0x1001, are outside. -/
theorem witness_StoreBcd : OutsideBlock (start [] 0x0FFE) 3 0x0FFD ∧ OutsideBlock (start [] 0x0FFE) 3 0x0001 ∧
    OutsideBlock (start [] 0x0FFE) 3 0x1001 := by
  refine ⟨?_, ?_, ?_⟩ <;> unfold OutsideBlock <;> decide

/-- x = 0 stores one byte, x = F sixteen, V0 to V15 among them. -/
theorem witness_StoreRegisters : OutsideBlock (start [] 0x0400) 1 0x0401 ∧ OutsideBlock (start [] 0x0400) 16 0x0410 ∧
    (0 : RegIdx) ≤ 0 ∧ (15 : RegIdx) ≤ 15 := by
  refine ⟨?_, ?_, by decide, by decide⟩ <;> unfold OutsideBlock <;> decide

theorem witness_LoadRegisters : (2 : RegIdx) ≤ 2 ∧ decide ((3 : RegIdx) ≤ 2) = false := by decide

/-- T21: F155 at 0x206 with I = 0x208 stores over the next instruction. -/
theorem witness_StoreIsSeenByNextFetch :
    let s := poke 0x0206 [0xF1, 0x55] { start [(0, 0x12)] 0x0208 with pc := 0x0206 }
    ¬ halted s ∧ decodeWord (fetch s) = .ok (.ldMemVx 1) ∧ (0 : RegIdx).val + 1 = (1 : RegIdx).val ∧ (1 : RegIdx) ≤ 1 ∧
    maskAddr (effAddr s (0 : RegIdx).val) = maskAddr (s.pc + 2) := ⟨by decide, rfl, rfl, by decide, by decide⟩

/-- T172. -/
theorem witness_ReadDelayTimer : ¬ halted { ready 0xF107 with dt := 2 } ∧
    decodeWord (fetch { ready 0xF107 with dt := 2 }) = .ok (.ldVxDt 1) := ⟨by decide, rfl⟩

/-- No key down, and keys 7 and C down: 7 is the lowest (T175, T176); key 15 alone (T177); key 0 among all (T179). -/
theorem witness_WaitForKey :
    keysNow (supplyInput 0 0 State.reset) = 0 ∧
    ((keysNow (supplyInput 0x1080 0 State.reset)).getLsbD (7 : Fin 16).val = true ∧
      ∀ j < (7 : Fin 16), (keysNow (supplyInput 0x1080 0 State.reset)).getLsbD j.val = false) ∧
    ((keysNow (supplyInput 0x8000 0 State.reset)).getLsbD (15 : Fin 16).val = true ∧
      ∀ j < (15 : Fin 16), (keysNow (supplyInput 0x8000 0 State.reset)).getLsbD j.val = false) ∧
    ((keysNow (supplyInput 0xFFFF 0 State.reset)).getLsbD (0 : Fin 16).val = true ∧
      ∀ j < (0 : Fin 16), (keysNow (supplyInput 0xFFFF 0 State.reset)).getLsbD j.val = false) := by decide

/-- T180, T183. -/
theorem witness_SetTimers : (¬ halted (ready 0xF015) ∧ decodeWord (fetch (ready 0xF015)) = .ok (.ldDtVx 0)) ∧
    (¬ halted (ready 0xF018) ∧ decodeWord (fetch (ready 0xF018)) = .ok (.ldStVx 0)) := ⟨⟨by decide, rfl⟩, ⟨by decide, rfl⟩⟩

/-- A jump to itself with DT = 1 is safe for two steps, and DT would pass below zero. -/
theorem witness_DelayTimerCountsSteps :
    SafeFor 2 { ready 0x1200 with dt := 1 } ∧
    ∀ j < 2, ∀ u x, core.run j { ready 0x1200 with dt := 1 } = .next u → decodeWord (fetch u) ≠ .ok (.ldDtVx x) := by
  have h : ∀ j < 3, nextIs (core.run j { ready 0x1200 with dt := 1 }) (fun t => !decide (halted t) && decide (fetch t = 0x1200)) = true := by
    decide
  refine ⟨fun j hj => ?_, fun j hj u x hu hd => ?_⟩
  · obtain ⟨t, ht, hp⟩ := next_of (h j (by omega))
    exact ⟨t, ht, by simpa using (Bool.and_eq_true_iff.1 hp).1⟩
  · have hp := of_next (h j (by omega)) hu
    rw [of_decide_eq_true (Bool.and_eq_true_iff.1 hp).2] at hd
    cases hd

/-- P6: no key down for three steps. -/
theorem witness_WaitingKeepsDecaying :
    let s := { ready 0xF30A with dt := 2, inputs := [⟨0, 0⟩, ⟨0, 7⟩, ⟨0, 9⟩] }
    ¬ halted s ∧ decodeWord (fetch s) = .ok (.ldVxK 3) ∧ ∀ j < 3, ∃ now, s.inputs[j]? = some now ∧ now.keys = 0 := by
  refine ⟨by decide, rfl, fun j hj => ?_⟩
  match j, hj with
  | 0, _ => exact ⟨_, rfl, rfl⟩
  | 1, _ => exact ⟨_, rfl, rfl⟩
  | 2, _ => exact ⟨_, rfl, rfl⟩

theorem witness_HaltLastsUnderStepping : halted stopped := by decide

/-- The addresses next to the font on both sides, for FONT_BASE = 0 and FONT_BASE = 0x1B0 where one side has none. -/
theorem witness_ResetValues :
    (0x04F < Config.defaultFont.base.val ∨ Config.defaultFont.base.val + 80 ≤ 0x04F) ∧
    (0x0A0 < Config.defaultFont.base.val ∨ Config.defaultFont.base.val + 80 ≤ 0x0A0) ∧
    (80 < ({ Config.defaultFont with base := 0 } : Config.Font).base.val ∨ ({ Config.defaultFont with base := 0 } : Config.Font).base.val + 80 ≤ 80) ∧
    (0x1AF < ({ Config.defaultFont with base := 0x1B0 } : Config.Font).base.val) := by decide

/-- Images of 3584 and of 3585 bytes (S9). -/
theorem witness_LoadCopiesOrRejects :
    (List.replicate 3584 (1 : Byte)).length ≤ 3584 ∧ 3584 < (List.replicate 3585 (1 : Byte)).length := by
  rw [List.length_replicate, List.length_replicate]; decide

end Sys2Proof.Tests
end

/-! SUPPORT. The state family (10_state.md). First the next state of an instruction as a function, and what it leaves alone. -/

namespace Sys2Proof.Machine

/-! ## The next state of an instruction -/

/-- The state an instruction leads to. Every meaning answers a next state (`exec_eq`), so the last two arms are never taken. -/
def execNext (i : Instr) (s : State) : State :=
  match exec i s with
  | .next t => t
  | .fault _ => s
  | .refused _ => s

theorem exec_eq (i : Instr) (s : State) : exec i s = .next (execNext i s) := by cases i <;> rfl

theorem execNext_of_exec {i : Instr} {s t : State} (h : exec i s = .next t) : execNext i s = t := by
  rw [exec_eq] at h
  exact Host.Outcome.next.inj h

/-! ### RET, CALL and LD Vx, K, branch by branch -/

theorem execNext_ret_of_pos {s : State} (h : 0 < s.sp.val) : execNext .ret s =
    { s with pc := s.stack[s.sp.val - 1]'(by omega), sp := ⟨s.sp.val - 1, by omega⟩ } := by
  simp only [execNext, exec, execRet, pop_of_pos h, setPc]

theorem execNext_ret_of_empty {s : State} (h : s.sp.val = 0) : execNext .ret s = raise .stackUnderflow .ret s := by
  simp only [execNext, exec, execRet, pop_of_empty h]

theorem execNext_call_of_lt (nnn : Addr12) {s : State} (h : s.sp.val < 16) : execNext (.call nnn) s =
    { s with pc := zextAddr nnn, stack := s.stack.set s.sp.val s.pc, sp := ⟨s.sp.val + 1, by omega⟩ } := by
  simp only [execNext, exec, execCall, push_of_lt _ h, setPc]

theorem execNext_call_of_full (nnn : Addr12) {s : State} (h : s.sp.val = 16) :
    execNext (.call nnn) s = raise .stackOverflow (.call nnn) s := by
  simp only [execNext, exec, execCall, push_of_full _ h]

theorem execNext_ldVxK_of_none (x : RegIdx) {s : State} (h : lowestKey (keysNow s) = none) :
    execNext (.ldVxK x) s = setPc (s.pc - 2) s := by
  simp only [execNext, exec, execLdVxK, h]

theorem execNext_ldVxK_of_some (x : RegIdx) {s : State} {k : Fin 16} (h : lowestKey (keysNow s) = some k) :
    execNext (.ldVxK x) s = setV x (BitVec.ofNat 8 k.val) s := by
  simp only [execNext, exec, execLdVxK, h]

/-! ## Frames: what each kind of update leaves alone -/

section
variable (s : State)

theorem onlyChanged_regs (w : Vector Byte 16) : OnlyChanged [.regs] s { s with v := w } := by
  intro p hp; cases p <;> simp_all [Part.Same, memRead]

theorem onlyChanged_index (a : Word) : OnlyChanged [.index] s { s with i := a } := by
  intro p hp; cases p <;> simp_all [Part.Same, memRead, getV]

theorem onlyChanged_pc (a : Word) : OnlyChanged [.pc] s { s with pc := a } := by
  intro p hp; cases p <;> simp_all [Part.Same, memRead, getV]

theorem onlyChanged_regs_pc (w : Vector Byte 16) (a : Word) : OnlyChanged [.regs, .pc] s { s with v := w, pc := a } := by
  intro p hp; cases p <;> simp_all [Part.Same, memRead]

theorem onlyChanged_framebuffer (f : Framebuffer) : OnlyChanged [.framebuffer] s { s with fb := f } := by
  intro p hp; cases p <;> simp_all [Part.Same, memRead, getV]

theorem onlyChanged_regs_framebuffer (w : Vector Byte 16) (f : Framebuffer) :
    OnlyChanged [.regs, .framebuffer] s { s with v := w, fb := f } := by
  intro p hp; cases p <;> simp_all [Part.Same, memRead]

theorem onlyChanged_delay (b : Byte) : OnlyChanged [.delay] s { s with dt := b } := by
  intro p hp; cases p <;> simp_all [Part.Same, memRead, getV]

theorem onlyChanged_sound (b : Byte) : OnlyChanged [.sound] s { s with st := b } := by
  intro p hp; cases p <;> simp_all [Part.Same, memRead, getV]

theorem onlyChanged_memory (m : Memory) : OnlyChanged [.memory] s { s with mem := m } := by
  intro p hp; cases p <;> simp_all [Part.Same, getV]

theorem onlyChanged_ret (n : Fin 17) (a : Word) (l : FaultLatch) :
    OnlyChanged [.sp, .pc, .latch] s { s with sp := n, pc := a, fault := l } := by
  intro p hp; cases p <;> simp_all [Part.Same, memRead, getV]

theorem onlyChanged_call (k : Vector Word 16) (n : Fin 17) (a : Word) (l : FaultLatch) :
    OnlyChanged [.stack, .sp, .pc, .latch] s { s with stack := k, sp := n, pc := a, fault := l } := by
  intro p hp; cases p <;> simp_all [Part.Same, memRead, getV]

theorem onlyChanged_skipIf (b : Bool) : OnlyChanged [.pc] s (skipIf b s) := by
  cases b
  · exact onlyChanged_pc s s.pc
  · exact onlyChanged_pc s (s.pc + 2)

theorem onlyChanged_storeBytes (a : Word) (bs : List Byte) : OnlyChanged [.memory] s (storeBytes a bs s) := by
  rw [storeBytes_eq]; exact onlyChanged_memory s _

theorem onlyChanged_loadRegs (count : Nat) : OnlyChanged [.regs] s (loadRegs s count) := by
  rw [loadRegs_eq]; exact onlyChanged_regs s _

end

/-- The frame of every instruction: the "writes" column of R36, part by part. -/
theorem execNext_onlyChanged (i : Instr) (s : State) : OnlyChanged (writtenParts i) s (execNext i s) := by
  cases i with
  | cls => exact onlyChanged_framebuffer s _
  | ret =>
    by_cases h : s.sp.val = 0
    · rw [execNext_ret_of_empty h]; exact onlyChanged_ret s _ _ _
    · rw [execNext_ret_of_pos (Nat.pos_of_ne_zero h)]; exact onlyChanged_ret s _ _ _
  | call nnn =>
    by_cases h : s.sp.val < 16
    · rw [execNext_call_of_lt nnn h]; exact onlyChanged_call s _ _ _ _
    · rw [execNext_call_of_full nnn (by omega)]; exact onlyChanged_call s _ _ _ _
  | jp | jpV0Nnn => exact onlyChanged_pc s _
  | seVxKk | sneVxKk | seVxVy | sneVxVy | skpVx | sknpVx => exact onlyChanged_skipIf s _
  | ldVxKk | addVxKk | ldVxVy | orVxVy | andVxVy | xorVxVy | addVxVy | subVxVy | shrVx | subnVxVy | shlVx | rndVxKk | ldVxDt =>
    exact onlyChanged_regs s _
  | ldVxMem x => exact onlyChanged_loadRegs s _
  | ldINnn | addIVx | ldFVx => exact onlyChanged_index s _
  | drwVxVyN => exact onlyChanged_regs_framebuffer s _ _
  | ldVxK x =>
    cases h : lowestKey (keysNow s) with
    | none => rw [execNext_ldVxK_of_none x h]; exact onlyChanged_regs_pc s _ _
    | some k => rw [execNext_ldVxK_of_some x h]; exact onlyChanged_regs_pc s _ _
  | ldDtVx => exact onlyChanged_delay s _
  | ldStVx => exact onlyChanged_sound s _
  | ldBVx | ldMemVx => exact onlyChanged_storeBytes s _ _

/-! ### No instruction writes the font or the host's inputs -/

theorem execNext_font (i : Instr) (s : State) : (execNext i s).font = s.font :=
  execNext_onlyChanged i s .font (by cases i <;> simp [writtenParts])

theorem execNext_hostInputs (i : Instr) (s : State) :
    (execNext i s).inputs = s.inputs ∧ (execNext i s).inputIndex = s.inputIndex :=
  execNext_onlyChanged i s .hostInputs (by cases i <;> simp [writtenParts])

end Sys2Proof.Machine

/-! SUPPORT. The invariant `Inv` (10_state.md R33, R35): what it depends on, and that every step and every host operation keeps it. -/

namespace Sys2Proof.Machine

/-! ## What an instruction does to the latch and to memory -/

/-- An instruction leaves the latch alone, but for the two stack faults (R126, R217). -/
theorem execNext_fault_cases (i : Instr) (s : State) :
    (execNext i s).fault = s.fault ∨
    (s.sp.val = 0 ∧ execNext i s = raise .stackUnderflow .ret s) ∨
    (s.sp.val = 16 ∧ ∃ nnn, execNext i s = raise .stackOverflow (.call nnn) s) := by
  cases i with
  | ret =>
    by_cases h : s.sp.val = 0
    · exact .inr (.inl ⟨h, execNext_ret_of_empty h⟩)
    · exact .inl (by rw [execNext_ret_of_pos (Nat.pos_of_ne_zero h)])
  | call nnn =>
    by_cases h : s.sp.val < 16
    · exact .inl (by rw [execNext_call_of_lt nnn h])
    · have hfull : s.sp.val = 16 := by omega
      exact .inr (.inr ⟨hfull, nnn, execNext_call_of_full nnn hfull⟩)
  | _ => exact .inl (execNext_onlyChanged _ s .latch (by simp [writtenParts]))

/-- An instruction leaves the list of memory cells alone, or stores bytes at I (R36). -/
theorem execNext_mem_cases (i : Instr) (s : State) :
    (execNext i s).mem = s.mem ∨ ∃ bs, execNext i s = storeBytes (effAddr s 0) bs s := by
  cases i with
  | ldBVx | ldMemVx => exact .inr ⟨_, rfl⟩
  | ret =>
    by_cases h : s.sp.val = 0
    · exact .inl (by rw [execNext_ret_of_empty h, raise_mem])
    · exact .inl (by rw [execNext_ret_of_pos (Nat.pos_of_ne_zero h)])
  | call nnn =>
    by_cases h : s.sp.val < 16
    · exact .inl (by rw [execNext_call_of_lt nnn h])
    · exact .inl (by rw [execNext_call_of_full nnn (by omega), raise_mem])
  | ldVxK x =>
    cases h : lowestKey (keysNow s) with
    | none => exact .inl (by rw [execNext_ldVxK_of_none x h, setPc_mem])
    | some k => exact .inl (by rw [execNext_ldVxK_of_some x h, setV_mem])
  | seVxKk | sneVxKk | seVxVy | sneVxVy | skpVx | sknpVx => exact .inl (skipIf_mem s _)
  | ldVxMem x => exact .inl (show (loadRegs s (x.val + 1)).mem = s.mem by rw [loadRegs_eq])
  | _ => exact .inl rfl

theorem execNext_wf (i : Instr) {s : State} (h : Memory.wf s.font s.mem) :
    Memory.wf (execNext i s).font (execNext i s).mem := by
  rw [execNext_font]
  obtain hm | ⟨bs, hbs⟩ := execNext_mem_cases i s
  · rwa [hm]
  · rw [hbs]; exact storeBytes_wf bs _ h

/-! ## The latch -/

/-- The record of a machine that runs is clear, and stays truthful whatever else changes. -/
theorem latchTruthful_of_running {s t : State} (h : LatchTruthful s) (hs : ¬ halted s) (hf : t.fault = s.fault) :
    LatchTruthful t := by
  have hc : s.fault.cause = .none := Classical.not_not.1 hs
  simpa only [LatchTruthful, hf, hc] using h

/-- What the latch tells depends on itself, on the pc and on SP alone. -/
theorem latchTruthful_congr {s t : State} (h : LatchTruthful s) (hf : t.fault = s.fault) (hpc : t.pc = s.pc)
    (hsp : t.sp = s.sp) : LatchTruthful t := by
  simpa only [LatchTruthful, hf, hpc, hsp] using h

/-! ### What each family rejects (R97) -/

theorem decodeFamily0_error {w : Word} {e : DecodeReject} (h : decodeFamily0 w = .error e) :
    w.toNat ≠ 0x00E0 ∧ w.toNat ≠ 0x00EE := by
  constructor <;> intro hw
  · rw [BitVec.eq_of_toNat_eq (y := 0x00E0#16) hw] at h; cases h
  · rw [BitVec.eq_of_toNat_eq (y := 0x00EE#16) hw] at h; cases h

theorem decodeFamily8_error {w : Word} {e : DecodeReject} (h : decodeFamily8 w = .error e) :
    7 < (nField w).val ∧ (nField w).val ≠ 0xE := by
  unfold decodeFamily8 at h
  split at h
  case h_10 => simp only [imp_false] at *; omega
  all_goals cases h

theorem decodeFamilyE_error {w : Word} {e : DecodeReject} (h : decodeFamilyE w = .error e) :
    (kkField w).toNat ≠ 0x9E ∧ (kkField w).toNat ≠ 0xA1 := by
  unfold decodeFamilyE at h
  constructor <;> intro hkk
  · rw [BitVec.eq_of_toNat_eq (y := 0x9E#8) hkk] at h; cases h
  · rw [BitVec.eq_of_toNat_eq (y := 0xA1#8) hkk] at h; cases h

theorem decodeFamilyF_error {w : Word} {e : DecodeReject} (h : decodeFamilyF w = .error e) :
    (kkField w).toNat ∉ [0x07, 0x0A, 0x15, 0x18, 0x1E, 0x29, 0x33, 0x55, 0x65] := by
  unfold decodeFamilyF at h
  split at h
  case h_10 => simp_all
  all_goals cases h

/-- An illegal word is none of the well-formed ones. -/
theorem wordWellFormed_of_decode_error {w : Word} {e : DecodeReject} (h : decodeWord w = .error e) :
    wordWellFormed w = false := by
  rw [wordWellFormed_fields]
  unfold decodeWord at h
  split at h
  case h_1 hop => simpa [hop] using decodeFamily0_error h
  case h_6 hop | h_10 hop =>
    split at h
    · cases h
    · next hn => simpa [hop] using hn
  case h_9 hop => simpa [hop] using decodeFamily8_error h
  case h_15 hop => simpa [hop] using decodeFamilyE_error h
  case h_16 =>
    have hop : (opField w).val = 0xF := by simp only [imp_false] at *; omega
    simpa [hop] using decodeFamilyF_error h
  all_goals cases h

theorem latchTruthful_decodeError {s : State} {e : DecodeReject} (h : decodeWord (fetch s) = .error e) :
    LatchTruthful (takeFault .decodeError s.pc (fetch s) s) :=
  ⟨rfl, wordWellFormed_of_decode_error h⟩

theorem latchTruthful_underflow {s : State} (h : s.sp.val = 0) : LatchTruthful (raise .stackUnderflow .ret s) :=
  ⟨rfl, rfl, h⟩

theorem latchTruthful_overflow {s : State} (nnn : Addr12) (h : s.sp.val = 16) :
    LatchTruthful (raise .stackOverflow (.call nnn) s) :=
  ⟨rfl, (opField_val _).symm.trans (opField_packNnn 0x2 nnn), h⟩

/-! ## The invariant through a step -/

theorem inv_advancePc {s : State} (h : Inv s) (hs : ¬ halted s) : Inv (advancePc s) :=
  ⟨h.1, latchTruthful_of_running h.2 hs rfl⟩

theorem inv_finish {s : State} (h : Inv s) : Inv (finish s) := by
  by_cases hs : halted s
  · rwa [finish_of_halted hs]
  · rw [finish_of_safe hs]
    exact ⟨h.1, latchTruthful_congr h.2 rfl rfl rfl⟩

theorem inv_execNext (i : Instr) {s : State} (h : Inv s) (hs : ¬ halted s) : Inv (execNext i s) := by
  refine ⟨execNext_wf i h.1, ?_⟩
  obtain hf | ⟨hsp, hr⟩ | ⟨hsp, nnn, hr⟩ := execNext_fault_cases i s
  · exact latchTruthful_of_running h.2 hs hf
  · rw [hr]; exact latchTruthful_underflow hsp
  · rw [hr]; exact latchTruthful_overflow nnn hsp

/-- Settles O14: a step stays, records an illegal word, or executes an instruction, and each keeps the invariant. -/
theorem stepKeepsInvariant : Obligations.StepKeepsInvariant := by
  unfold Obligations.StepKeepsInvariant
  intro s t hinv hstep
  obtain ⟨-, rfl⟩ | ⟨-, e, he, rfl⟩ | ⟨hs, i, u, -, hx, rfl⟩ := step_cases hstep
  · exact hinv
  · exact ⟨hinv.1, latchTruthful_decodeError he⟩
  · rw [← execNext_of_exec hx]
    exact inv_finish (inv_execNext i (inv_advancePc hinv hs) hs)

/-! ## The invariant after reset and through the host's operations -/

/-- Settles O15: after reset the list of cells is empty and the latch clear. -/
theorem resetMeetsInvariant : Obligations.ResetMeetsInvariant := by
  unfold Obligations.ResetMeetsInvariant
  intro font
  have hmem : Memory.wf font [] := ⟨.nil, fun c hc => absurd hc List.not_mem_nil⟩
  exact ⟨hmem, rfl, rfl⟩

/-- Byte stores from outside the machine keep the invariant. -/
theorem inv_storeBytes (a : Word) (bs : List Byte) {s : State} (h : Inv s) : Inv (storeBytes a bs s) := by
  have hmem := storeBytes_wf bs a h.1
  rw [storeBytes_eq]
  exact ⟨hmem, latchTruthful_congr h.2 rfl rfl rfl⟩

theorem inv_hostLoad (bytes : List Byte) {s : State} (h : Inv s) : Inv (hostLoad bytes s).2 := by
  unfold hostLoad
  split
  · exact inv_storeBytes _ bytes h
  · exact h

theorem inv_withFetchWord (nbits w : Nat) {s : State} (h : Inv s) : Inv (s.withFetchWord nbits w) := by
  have hclear : Inv { s with fault := FaultLatch.clear } := ⟨h.1, rfl, rfl⟩
  exact inv_storeBytes _ _ hclear

/-- Settles O16: reset rebuilds the reset state, load and the placing of a word are byte stores, and inputs are no part of the invariant. -/
theorem hostOperationsKeepInvariant : Obligations.HostOperationsKeepInvariant := by
  unfold Obligations.HostOperationsKeepInvariant
  intro s h
  have hreset := resetMeetsInvariant s.font
  exact ⟨⟨hreset.1, latchTruthful_congr hreset.2 rfl rfl rfl⟩, fun bytes => inv_hostLoad bytes h,
    fun _ _ => ⟨h.1, latchTruthful_congr h.2 rfl rfl rfl⟩, fun nbits w => inv_withFetchWord nbits w h⟩

end Sys2Proof.Machine

/-! SUPPORT. What a program cannot see (10_state.md R22, R23, R27, R30, R31). One relation covers all three statements: two states agree
in every part an instruction may read, addresses up to a relation `W` of words, and nothing is asked of ST and of the host's inputs. -/

namespace Sys2Proof.Machine

/-- A relation of words that address arithmetic respects and that no memory access sees through. -/
structure AddressRel (W : Word → Word → Prop) : Prop where
  refl : ∀ a, W a a
  add : ∀ {a b}, W a b → ∀ c, W (a + c) (b + c)
  mask : ∀ {a b}, W a b → maskAddr a = maskAddr b

theorem addressRel_eq : AddressRel Eq where
  refl _ := rfl
  add h _ := by rw [h]
  mask h := by rw [h]

theorem addressRel_sameLow12 : AddressRel SameLow12 where
  refl _ := rfl
  add h c := by
    simp only [SameLow12, BitVec.toNat_add] at h ⊢
    omega
  mask h := h

theorem AddressRel.sub {W : Word → Word → Prop} (hW : AddressRel W) {a b : Word} (h : W a b) (c : Word) : W (a - c) (b - c) := by
  rw [BitVec.sub_eq_add_neg, BitVec.sub_eq_add_neg]
  exact hW.add h _

/-- The states agree, addresses up to `W`, in everything but ST and the host's inputs. -/
structure AgreeBy (W : Word → Word → Prop) (s t : State) : Prop where
  i : W s.i t.i
  pc : W s.pc t.pc
  stack : ∀ k : Fin 16, W s.stack[k] t.stack[k]
  fpc : W s.fault.fpc t.fault.fpc
  cause : s.fault.cause = t.fault.cause
  fop : s.fault.fop = t.fault.fop
  v : s.v = t.v
  sp : s.sp = t.sp
  dt : s.dt = t.dt
  mem : s.mem = t.mem
  fb : s.fb = t.fb
  font : s.font = t.font

/-- Agreement modulo 4096 is agreement by the low twelve bits, and in ST and the host's inputs. -/
theorem agreeLow12_iff {s t : State} : AgreeLow12 s t ↔
    AgreeBy SameLow12 s t ∧ s.st = t.st ∧ s.inputs = t.inputs ∧ s.inputIndex = t.inputIndex := by
  constructor
  · rintro ⟨hi, hpc, hstack, hfpc, hcause, hfop, hv, hsp, hdt, hst, hmem, hfb, hfont, hin, hidx⟩
    exact ⟨⟨hi, hpc, hstack, hfpc, hcause, hfop, hv, hsp, hdt, hmem, hfb, hfont⟩, hst, hin, hidx⟩
  · rintro ⟨⟨hi, hpc, hstack, hfpc, hcause, hfop, hv, hsp, hdt, hmem, hfb, hfont⟩, hst, hin, hidx⟩
    exact ⟨hi, hpc, hstack, hfpc, hcause, hfop, hv, hsp, hdt, hst, hmem, hfb, hfont, hin, hidx⟩

theorem agreeBy_refl {W : Word → Word → Prop} (hW : AddressRel W) (s : State) : AgreeBy W s s :=
  ⟨hW.refl _, hW.refl _, fun _ => hW.refl _, hW.refl _, rfl, rfl, rfl, rfl, rfl, rfl, rfl, rfl⟩

/-- States that agree by equality differ in ST and in the host's inputs at most. -/
theorem eq_of_agreeBy_eq {s t : State} (h : AgreeBy Eq s t) :
    t = { s with st := t.st, inputs := t.inputs, inputIndex := t.inputIndex } := by
  obtain ⟨hi, hpc, hstack, hfpc, hcause, hfop, hv, hsp, hdt, hmem, hfb, hfont⟩ := h
  have hs : s.stack = t.stack := Vector.ext fun k hk => hstack ⟨k, hk⟩
  have hf : s.fault = t.fault := by
    cases hsf : s.fault; cases htf : t.fault
    simp_all
  cases s; cases t
  simp_all

/-! ## Every update keeps the agreement -/

section
variable {W : Word → Word → Prop} {s t : State}

theorem AgreeBy.getV_eq (h : AgreeBy W s t) (x : RegIdx) : getV x s = getV x t := getV_of_v_eq h.v x

theorem AgreeBy.halted_iff (h : AgreeBy W s t) : halted s ↔ halted t := by simp only [halted, h.cause]

theorem AgreeBy.after_setV (h : AgreeBy W s t) (x : RegIdx) {b c : Byte} (hb : b = c) :
    AgreeBy W (setV x b s) (setV x c t) :=
  { h with v := by rw [setV_v, setV_v, h.v, hb] }

theorem AgreeBy.after_setVThenFlag (h : AgreeBy W s t) (x : RegIdx) {b c : Byte} {f g : Bool} (hb : b = c) (hf : f = g) :
    AgreeBy W (setVThenFlag x b f s) (setVThenFlag x c g t) :=
  (h.after_setV x hb).after_setV regF (congrArg flagByte hf)

theorem AgreeBy.after_setPc (h : AgreeBy W s t) {a b : Word} (hab : W a b) : AgreeBy W (setPc a s) (setPc b t) :=
  { h with pc := hab }

theorem AgreeBy.after_setI (h : AgreeBy W s t) {a b : Word} (hab : W a b) : AgreeBy W (setI a s) (setI b t) :=
  { h with i := hab }

theorem AgreeBy.with_fb (h : AgreeBy W s t) {f g : Framebuffer} (hf : f = g) :
    AgreeBy W { s with fb := f } { t with fb := g } :=
  { h with fb := hf }

theorem AgreeBy.with_dt (h : AgreeBy W s t) {b c : Byte} (hb : b = c) : AgreeBy W { s with dt := b } { t with dt := c } :=
  { h with dt := hb }

/-- ST and the host's inputs play no part in the agreement. -/
theorem AgreeBy.with_ignored (h : AgreeBy W s t) (b c : Byte) (l m : List StepInput) (j k : Nat) :
    AgreeBy W { s with st := b, inputs := l, inputIndex := j } { t with st := c, inputs := m, inputIndex := k } :=
  { h with }

theorem AgreeBy.after_takeFault (h : AgreeBy W s t) (c : FaultCause) {a b : Word} (hab : W a b) (w : Word) :
    AgreeBy W (takeFault c a w s) (takeFault c b w t) :=
  { h with pc := hab, fpc := hab, cause := rfl, fop := rfl }

variable (hW : AddressRel W)
include hW

theorem AgreeBy.memRead_eq (h : AgreeBy W s t) {a b : Word} (hab : W a b) : memRead a s = memRead b t :=
  memRead_congr h.mem h.font (hW.mask hab)

theorem AgreeBy.effAddr_rel (h : AgreeBy W s t) (k : Nat) : W (effAddr s k) (effAddr t k) := hW.add h.i _

theorem AgreeBy.fetch_eq (h : AgreeBy W s t) : fetch s = fetch t :=
  fetch_congr h.mem h.font (hW.mask h.pc) (hW.mask (hW.add h.pc 1))

theorem AgreeBy.drawSprite_eq (h : AgreeBy W s t) (x0 : Fin 64) (y0 : Fin 32) (n : Nat) :
    drawSprite x0 y0 n s = drawSprite x0 y0 n t := by
  have hrows : ∀ acc, drawRows x0 y0 s n acc = drawRows x0 y0 t n acc := by
    intro acc
    induction n with
    | zero => rfl
    | succ r ih => rw [drawRows, drawRows, ih, h.memRead_eq hW (h.effAddr_rel hW r)]
  rw [drawSprite, drawSprite, h.fb, hrows]

theorem AgreeBy.after_skipIf (h : AgreeBy W s t) {b c : Bool} (hb : b = c) : AgreeBy W (skipIf b s) (skipIf c t) := by
  subst hb
  cases b
  · exact h
  · exact h.after_setPc (hW.add h.pc 2)

theorem AgreeBy.after_advancePc (h : AgreeBy W s t) : AgreeBy W (advancePc s) (advancePc t) :=
  h.after_setPc (hW.add h.pc 2)

theorem AgreeBy.after_raise (h : AgreeBy W s t) (c : FaultCause) (i : Instr) : AgreeBy W (raise c i s) (raise c i t) :=
  h.after_takeFault c (hW.sub h.pc 2) (encode i)

theorem AgreeBy.after_memWrite (h : AgreeBy W s t) {a b : Word} (hab : W a b) (c : Byte) :
    AgreeBy W (memWrite a c s) (memWrite b c t) :=
  { h with mem := by rw [memWrite_mem, memWrite_mem, h.font, h.mem, hW.mask hab] }

theorem AgreeBy.after_storeBytes (h : AgreeBy W s t) {a b : Word} (hab : W a b) {bs cs : List Byte} (hb : bs = cs) :
    AgreeBy W (storeBytes a bs s) (storeBytes b cs t) := by
  subst hb
  induction bs generalizing a b s t with
  | nil => exact h
  | cons c bs ih => exact ih (h.after_memWrite hW hab c) (hW.add hab 1)

theorem AgreeBy.after_loadRegs (h : AgreeBy W s t) (count : Nat) : AgreeBy W (loadRegs s count) (loadRegs t count) := by
  induction count with
  | zero => exact h
  | succ k ih => exact ih.after_setV _ (h.memRead_eq hW (h.effAddr_rel hW k))

/-! ### Instructions -/

theorem AgreeBy.after_ret (h : AgreeBy W s t) : AgreeBy W (execNext .ret s) (execNext .ret t) := by
  by_cases hs : s.sp.val = 0
  · rw [execNext_ret_of_empty hs, execNext_ret_of_empty (h.sp ▸ hs)]
    exact h.after_raise hW _ _
  · have hlt := s.sp.isLt
    rw [execNext_ret_of_pos (Nat.pos_of_ne_zero hs), execNext_ret_of_pos (h.sp ▸ Nat.pos_of_ne_zero hs)]
    refine { h with pc := ?_, sp := ?_ }
    · simpa only [h.sp, Fin.getElem_fin] using h.stack ⟨s.sp.val - 1, by omega⟩
    · simp only [h.sp]

theorem AgreeBy.after_call (h : AgreeBy W s t) (nnn : Addr12) :
    AgreeBy W (execNext (.call nnn) s) (execNext (.call nnn) t) := by
  by_cases hs : s.sp.val < 16
  · rw [execNext_call_of_lt nnn hs, execNext_call_of_lt nnn (h.sp ▸ hs)]
    refine { h with pc := hW.refl _, sp := by simp only [h.sp], stack := fun k => ?_ }
    simp only [Fin.getElem_fin, Vector.getElem_set, h.sp]
    split
    · exact h.pc
    · exact h.stack k
  · have hfull : s.sp.val = 16 := by omega
    rw [execNext_call_of_full nnn hfull, execNext_call_of_full nnn (h.sp ▸ hfull)]
    exact h.after_raise hW _ _

theorem AgreeBy.after_ldVxK (h : AgreeBy W s t) (x : RegIdx) (hk : keysNow s = keysNow t) :
    AgreeBy W (execNext (.ldVxK x) s) (execNext (.ldVxK x) t) := by
  cases hl : lowestKey (keysNow s) with
  | none =>
    rw [execNext_ldVxK_of_none x hl, execNext_ldVxK_of_none x (hk ▸ hl)]
    exact h.after_setPc (hW.sub h.pc 2)
  | some k =>
    rw [execNext_ldVxK_of_some x hl, execNext_ldVxK_of_some x (hk ▸ hl)]
    exact h.after_setV x rfl

/-- States that agree, and whose inputs agree where the instruction reads one, are taken by it to states that agree. -/
theorem AgreeBy.after_execNext (h : AgreeBy W s t) (i : Instr) (hk : readsKeys i = true → keysNow s = keysNow t)
    (hr : readsRnd i = true → rndNow s = rndNow t) : AgreeBy W (execNext i s) (execNext i t) := by
  have hv := h.getV_eq
  cases i with
  | cls => exact h.with_fb rfl
  | ret => exact h.after_ret hW
  | call nnn => exact h.after_call hW nnn
  | jp => exact h.after_setPc (hW.refl _)
  | jpV0Nnn => exact h.after_setPc (by rw [hv]; exact hW.refl _)
  | seVxKk | sneVxKk | seVxVy | sneVxVy => exact h.after_skipIf hW (by simp only [hv])
  | skpVx | sknpVx => exact h.after_skipIf hW (by simp only [keyDown, hv, hk rfl])
  | ldVxKk | addVxKk | ldVxVy | orVxVy | andVxVy | xorVxVy => exact h.after_setV _ (by simp only [hv])
  | addVxVy | subVxVy | shrVx | subnVxVy | shlVx => exact h.after_setVThenFlag _ (by simp only [hv]) (by simp only [hv])
  | rndVxKk => exact h.after_setV _ (by rw [hr rfl])
  | ldVxDt => exact h.after_setV _ h.dt
  | ldVxK x => exact h.after_ldVxK hW x (hk rfl)
  | ldVxMem => exact h.after_loadRegs hW _
  | ldINnn => exact h.after_setI (hW.refl _)
  | addIVx => exact h.after_setI (by rw [hv]; exact hW.add h.i _)
  | ldFVx => exact h.after_setI (by rw [hv, h.font]; exact hW.refl _)
  | drwVxVyN x y n =>
    have hdraw : drawSprite (originColumn (getV x s)) (originRow (getV y s)) n.val s =
        drawSprite (originColumn (getV x t)) (originRow (getV y t)) n.val t := by
      rw [hv, hv, h.drawSprite_eq hW]
    exact (h.with_fb (congrArg Prod.fst hdraw)).after_setV regF (congrArg (flagByte ·.2) hdraw)
  | ldDtVx x => exact h.with_dt (hv x)
  | ldStVx => exact h.with_ignored _ _ _ _ _ _
  | ldBVx => exact h.after_storeBytes hW (h.effAddr_rel hW 0) (by rw [hv])
  | ldMemVx => exact h.after_storeBytes hW (h.effAddr_rel hW 0) (by rw [regBlock, regBlock, h.v])

end

/-! ## What a program cannot see -/

/-- ST after an instruction depends on ST and on the registers alone. -/
theorem execNext_st_congr (i : Instr) {s t : State} (hv : s.v = t.v) (hst : s.st = t.st) :
    (execNext i s).st = (execNext i t).st := by
  cases i with
  | ldStVx x => exact getV_of_v_eq hv x
  | _ =>
    exact (execNext_onlyChanged _ s .sound (by simp [writtenParts])).trans
      (hst.trans (execNext_onlyChanged _ t .sound (by simp [writtenParts])).symm)

theorem agreeLow12_execNext (i : Instr) {s t : State} (h : AgreeLow12 s t) : AgreeLow12 (execNext i s) (execNext i t) := by
  obtain ⟨hA, hst, hin, hidx⟩ := agreeLow12_iff.1 h
  obtain ⟨hsin, hsidx⟩ := execNext_hostInputs i s
  obtain ⟨htin, htidx⟩ := execNext_hostInputs i t
  have hk : keysNow s = keysNow t := by rw [keysNow, keysNow, hin, hidx]
  have hr : rndNow s = rndNow t := by rw [rndNow, rndNow, hin, hidx]
  refine agreeLow12_iff.2 ⟨hA.after_execNext addressRel_sameLow12 i (fun _ => hk) (fun _ => hr),
    execNext_st_congr i hA.v hst, ?_, ?_⟩
  · rw [hsin, htin, hin]
  · rw [hsidx, htidx, hidx]

theorem agreeLow12_finish {s t : State} (h : AgreeLow12 s t) : AgreeLow12 (finish s) (finish t) := by
  obtain ⟨hA, hst, hin, hidx⟩ := agreeLow12_iff.1 h
  by_cases hs : halted s
  · rwa [finish_of_halted hs, finish_of_halted (hA.halted_iff.1 hs)]
  · rw [finish_of_safe hs, finish_of_safe (mt hA.halted_iff.2 hs)]
    exact agreeLow12_iff.2 ⟨(hA.with_dt (congrArg decay hA.dt)).with_ignored _ _ _ _ _ _, congrArg decay hst,
      congrArg List.tail hin, congrArg (· + 1) hidx⟩

/-- Settles O17: both states stay halted, or both fetch one word, which both reject or both execute. -/
theorem behaviourDependsOnLowTwelveBits : Obligations.BehaviourDependsOnLowTwelveBits := by
  unfold Obligations.BehaviourDependsOnLowTwelveBits
  intro s t s' h hstep
  obtain ⟨hA, hst, hin, hidx⟩ := agreeLow12_iff.1 h
  have hfetch := hA.fetch_eq addressRel_sameLow12
  obtain ⟨hs, rfl⟩ | ⟨hs, e, he, rfl⟩ | ⟨hs, i, u, hi, hx, rfl⟩ := step_cases hstep
  · exact ⟨t, step_of_halted (hA.halted_iff.1 hs), h⟩
  · refine ⟨_, step_of_decode_error (mt hA.halted_iff.2 hs) (hfetch ▸ he), ?_⟩
    rw [hfetch]
    exact agreeLow12_iff.2 ⟨hA.after_takeFault _ hA.pc _, hst, hin, hidx⟩
  · refine ⟨_, step_of_exec (mt hA.halted_iff.2 hs) (hfetch ▸ hi) (exec_eq i _), ?_⟩
    rw [← execNext_of_exec hx]
    have hadv : AgreeLow12 (advancePc s) (advancePc t) :=
      agreeLow12_iff.2 ⟨hA.after_advancePc addressRel_sameLow12, hst, hin, hidx⟩
    exact agreeLow12_finish (agreeLow12_execNext i hadv)

section
variable {s t : State} (h : AgreeBy Eq s t) (i : Instr)
include h

/-- States that agree by equality, and in the input the instruction reads, come out alike but for ST and the host's inputs. -/
theorem execNext_of_agreeBy_eq (hk : readsKeys i = true → keysNow s = keysNow t)
    (hr : readsRnd i = true → rndNow s = rndNow t) :
    execNext i t = { execNext i s with st := (execNext i t).st, inputs := t.inputs, inputIndex := t.inputIndex } := by
  have heq := eq_of_agreeBy_eq (h.after_execNext addressRel_eq i hk hr)
  obtain ⟨hin, hidx⟩ := execNext_hostInputs i t
  rwa [hin, hidx] at heq

theorem execNext_of_differ_in_st (hin : s.inputs = t.inputs) (hidx : s.inputIndex = t.inputIndex) :
    execNext i t = { execNext i s with st := (execNext i t).st } := by
  have hk : keysNow s = keysNow t := by rw [keysNow, keysNow, hin, hidx]
  have hr : rndNow s = rndNow t := by rw [rndNow, rndNow, hin, hidx]
  have heq := execNext_of_agreeBy_eq h i (fun _ => hk) (fun _ => hr)
  obtain ⟨hsin, hsidx⟩ := execNext_hostInputs i s
  rwa [← hin, ← hidx, ← hsin, ← hsidx] at heq

theorem execNext_of_differ_in_inputs (hst : s.st = t.st) (hidx : s.inputIndex = t.inputIndex)
    (hk : readsKeys i = true → keysNow s = keysNow t) (hr : readsRnd i = true → rndNow s = rndNow t) :
    execNext i t = { execNext i s with inputs := t.inputs } := by
  have heq := execNext_of_agreeBy_eq h i hk hr
  rwa [← execNext_st_congr i h.v hst, ← hidx, ← (execNext_hostInputs i s).2] at heq

end

/-- Settles O20: agreement by equality asks nothing of ST. -/
theorem soundTimerIsNeverRead : Obligations.SoundTimerIsNeverRead := by
  unfold Obligations.SoundTimerIsNeverRead
  intro i s b
  have hA : AgreeBy Eq s { s with st := b } := (agreeBy_refl addressRel_eq s).with_ignored _ _ _ _ _ _
  have heq := execNext_of_differ_in_st hA i rfl rfl
  exact ⟨execNext i s, _, exec_eq i s, (exec_eq i _).trans (congrArg _ heq)⟩

/-- Settles O19: agreement by equality asks of the inputs only the one that the instruction reads. -/
theorem inputsReachOnlyTheirReaders : Obligations.InputsReachOnlyTheirReaders := by
  unfold Obligations.InputsReachOnlyTheirReaders
  intro i s k k' r r' rest hk hr
  have hA : ∀ l m, AgreeBy Eq { s with inputs := l } { s with inputs := m } := fun l m =>
    (agreeBy_refl addressRel_eq s).with_ignored _ _ _ _ _ _
  have hsame := execNext_of_differ_in_inputs (hA (⟨k, r⟩ :: rest) (⟨k, r⟩ :: rest)) i rfl rfl (fun _ => rfl) (fun _ => rfl)
  have hother := execNext_of_differ_in_inputs (hA (⟨k, r⟩ :: rest) (⟨k', r'⟩ :: rest)) i rfl rfl hk hr
  exact ⟨_, (exec_eq i _).trans (congrArg _ hsame), (exec_eq i _).trans (congrArg _ hother)⟩

end Sys2Proof.Machine

/-! SUPPORT. The access matrix (10_state.md R36) register by register, byte by byte and entry by entry, and the values of reset (R37). -/

namespace Sys2Proof.Machine

/-! ## The access matrix -/

theorem getV_setV_ne {x j : RegIdx} (h : x ≠ j) (b : Byte) (s : State) : getV j (setV x b s) = getV j s := by
  rw [getV_setV, if_neg h]

theorem getV_setVThenFlag_ne {x j : RegIdx} (hx : x ≠ j) (hF : regF ≠ j) (b : Byte) (f : Bool) (s : State) :
    getV j (setVThenFlag x b f s) = getV j s :=
  (getV_setV_ne hF _ _).trans (getV_setV_ne hx _ _)

/-- The registers of the "writes" column are the only ones written. -/
theorem execNext_regsKept (i : Instr) (s : State) : RegsKeptExcept (writtenRegs i) s (execNext i s) := by
  intro j hj
  cases i with
  | ldVxKk x | addVxKk x | ldVxVy x | orVxVy x | andVxVy x | xorVxVy x | rndVxKk x | ldVxDt x =>
    have hx : x ≠ j := by rintro rfl; simp [writtenRegs] at hj
    exact getV_setV_ne hx _ s
  | addVxVy x | subVxVy x | shrVx x | subnVxVy x | shlVx x =>
    have hx : x ≠ j := by rintro rfl; simp [writtenRegs] at hj
    have hF : regF ≠ j := by rintro rfl; simp [writtenRegs] at hj
    exact getV_setVThenFlag_ne hx hF _ _ s
  | drwVxVyN =>
    have hF : regF ≠ j := by rintro rfl; simp [writtenRegs] at hj
    exact getV_setV_ne hF _ _
  | ldVxK x =>
    have hx : x ≠ j := by rintro rfl; simp [writtenRegs] at hj
    cases hl : lowestKey (keysNow s) with
    | none => rw [execNext_ldVxK_of_none x hl]; rfl
    | some k => rw [execNext_ldVxK_of_some x hl, getV_setV_ne hx]
  | ldVxMem x =>
    have hle : ¬ j.val ≤ x.val := of_decide_eq_false hj
    have hx : ¬ j.val < x.val + 1 := fun hlt => hle (Nat.le_of_lt_succ hlt)
    exact (getV_loadRegs s _ x.isLt j).trans (if_neg hx)
  | _ => exact execNext_onlyChanged _ s .regs (by simp [writtenParts]) j

/-- An instruction stores no byte but those at I that the matrix counts. -/
theorem execNext_bytesKept (i : Instr) (s : State) (a : Word) (h : OutsideBlock s (writtenBytes i) a) :
    memRead a (execNext i s) = memRead a s := by
  cases i with
  | ldBVx x => exact memRead_store_outsideBlock s _ a h
  | ldMemVx x => exact memRead_store_outsideBlock s _ a (by rwa [regBlock_length])
  | _ => exact execNext_onlyChanged _ s .memory (by simp [writtenParts]) a

/-- 2nnn writes the stack entry at SP; nothing else writes one. -/
theorem execNext_entriesKept (i : Instr) (s : State) (k : Fin 16) (h : ∀ nnn, i = .call nnn → k.val ≠ s.sp.val) :
    (execNext i s).stack[k] = s.stack[k] := by
  cases i with
  | call nnn =>
    by_cases hs : s.sp.val < 16
    · rw [execNext_call_of_lt nnn hs]
      exact Vector.getElem_set_ne hs k.isLt (h nnn rfl).symm
    · rw [execNext_call_of_full nnn (by omega), raise_stack]
  | _ => exact execNext_onlyChanged _ s .stack (by simp [writtenParts]) k

/-- Fx0A writes Vx when a key is down and the pc when none is. -/
theorem execNext_ldVxK_writesOne (x : RegIdx) (s : State) :
    (keysNow s = 0 → ∀ j, getV j (execNext (.ldVxK x) s) = getV j s) ∧
    (keysNow s ≠ 0 → (execNext (.ldVxK x) s).pc = s.pc) := by
  cases h : lowestKey (keysNow s) with
  | none =>
    rw [execNext_ldVxK_of_none x h]
    exact ⟨fun _ _ => rfl, fun hne => absurd ((lowestKey_eq_none _).1 h) hne⟩
  | some k =>
    rw [execNext_ldVxK_of_some x h]
    exact ⟨fun h0 => (by rw [(lowestKey_eq_none _).2 h0] at h; cases h), fun _ => rfl⟩

/-- Settles O18: the frame of every instruction, part by part, register by register, byte by byte and entry by entry. -/
theorem accessMatrixIsRespected : Obligations.AccessMatrixIsRespected := by
  unfold Obligations.AccessMatrixIsRespected
  intro i s t h
  rw [← execNext_of_exec h]
  refine ⟨execNext_onlyChanged i s, execNext_regsKept i s, execNext_bytesKept i s, execNext_entriesKept i s, ?_⟩
  rintro x rfl
  exact execNext_ldVxK_writesOne x s

/-! ## Reset (R37) -/

theorem resetByte_font (font : Config.Font) (k : Fin 80) : resetByte font (font.base.val + k.val) = font.data[k] := by
  have h : font.base.val ≤ font.base.val + k.val ∧ font.base.val + k.val < font.base.val + 80 := by omega
  simp [resetByte, h]

theorem resetByte_outside (font : Config.Font) {a : Nat} (h : a < font.base.val ∨ font.base.val + 80 ≤ a) :
    resetByte font a = 0 :=
  dif_neg (by omega)

/-- After reset every address reads as the reset contents. -/
theorem memCell_resetWith (font : Config.Font) {a : Nat} (h : a < 4096) :
    memCell (State.resetWith font) a = resetByte font a := by
  rw [memCell, Nat.mod_eq_of_lt h]; rfl

theorem getV_resetWith (font : Config.Font) (j : RegIdx) : getV j (State.resetWith font) = 0 :=
  Vector.getElem_replicate _

/-- `hostReset` is the reset state of the machine's own font, the host's inputs kept. -/
theorem hostReset_onlyChanged (s : State) : OnlyChanged [.hostInputs] (State.resetWith s.font) (hostReset s) := by
  intro p hp
  cases p <;> simp_all [Part.Same, hostReset, memRead, getV]

/-- Settles O54: the fields of the reset state, and memory through the reset contents. -/
theorem resetValues : Obligations.ResetValues := by
  unfold Obligations.ResetValues
  refine ⟨fun font => ?_, fun s => ⟨hostReset_onlyChanged s, not_not_intro rfl⟩⟩
  refine ⟨getV_resetWith font, rfl, rfl, rfl, fun k => Vector.getElem_replicate _, rfl, rfl, fun k => ?_,
    fun a ha hout => ?_, getPixel_clear, rfl, rfl⟩
  · rw [memCell_resetWith font (by omega), resetByte_font]
  · rw [memCell_resetWith font ha, resetByte_outside font hout]

end Sys2Proof.Machine

/-! SUPPORT. The memory family (20_memory.md): a byte read through a word's address is the cell at the address's number modulo 4096 (R61),
so that fetch (R62), load (R73) and a store seen by the next fetch (R72) are statements about cells. -/

namespace Sys2Proof.Machine

/-! ## Reads as cells -/

theorem memRead_eq_memCell (a : Word) (s : State) : memRead a s = memCell s a.toNat := rfl

theorem memRead_add (a : Word) (k : Nat) (s : State) : memRead (a + BitVec.ofNat 16 k) s = memCell s (a.toNat + k) := by
  rw [memRead, maskAddr_add, memCell]

theorem memRead_ofNat (k : Nat) (s : State) : memRead (BitVec.ofNat 16 k) s = memCell s k := by
  simpa using memRead_add 0 k s

/-! ## Stored blocks, cell by cell -/

section
variable (a : Word) (bs : List Byte) (s : State)

theorem memCell_storeBytes_inside (hlen : bs.length ≤ 4096) (k : Nat) (hk : k < bs.length) :
    memCell (storeBytes a bs s) (a.toNat + k) = bs[k] := by
  rw [← memRead_add]
  exact memRead_storeBytes_inside bs a s hlen k hk

theorem memCell_storeBytes_outside (k : Nat) (h : ∀ j < bs.length, (a.toNat + j) % 4096 ≠ k % 4096) :
    memCell (storeBytes a bs s) k = memCell s k := by
  rw [← memRead_ofNat, ← memRead_ofNat]
  refine memRead_storeBytes_outside bs a _ s fun j hj => ?_
  have hk : maskAddr (BitVec.ofNat 16 k) = k % 4096 := by simpa using maskAddr_add 0 k
  rw [maskAddr_add, hk]
  exact h j hj

end

/-! ## Fetch (R62) -/

/-- Settles O7: both bytes are read through the mask. -/
theorem fetchIsBigEndian : Obligations.FetchIsBigEndian := by
  unfold Obligations.FetchIsBigEndian
  intro s
  have hlo : memRead (s.pc + 1) s = memCell s (s.pc.toNat + 1) := memRead_add s.pc 1 s
  rw [fetch, wordOfBytes_toNat, memRead_eq_memCell, hlo]

/-! ## Load (R73) -/

theorem hostLoad_of_fits {bytes : List Byte} (h : bytes.length ≤ 3584) (s : State) :
    hostLoad bytes s = (.ok, storeBytes 0x200 bytes s) := if_pos h

theorem hostLoad_of_too_long {bytes : List Byte} (h : 3584 < bytes.length) (s : State) :
    hostLoad bytes s = (.tooLarge, s) := if_neg (Nat.not_le.2 h)

/-- Settles O55: an image that fits is one block at 0x200 that ends at or below address 4096, so no address wraps. -/
theorem loadCopiesOrRejects : Obligations.LoadCopiesOrRejects := by
  unfold Obligations.LoadCopiesOrRejects
  intro bytes s
  refine ⟨fun hfits => ⟨_, hostLoad_of_fits hfits s, ?copied, ?kept, onlyChanged_storeBytes s 0x200 bytes⟩,
    fun hlong => hostLoad_of_too_long hlong s⟩
  case copied => exact memCell_storeBytes_inside 0x200 bytes s (by omega)
  case kept =>
    intro a ha hout
    refine memCell_storeBytes_outside 0x200 bytes s a fun j hj => ?_
    have hbase : (0x200 : Word).toNat = 0x200 := rfl
    omega

/-! ## A store seen by the next fetch (R72) -/

@[simp] theorem finish_pc (s : State) : (finish s).pc = s.pc := by
  unfold finish; split <;> rfl

/-- The fetch reads at any address that the mask does not tell from the pc. -/
theorem fetch_of_maskAddr_eq {s : State} {a : Word} (h : maskAddr a = maskAddr s.pc) :
    fetch s = wordOfBytes (memRead a s) (memRead (a + 1) s) := by
  have hnext : maskAddr (a + 1) = maskAddr (s.pc + 1) := addressRel_sameLow12.add h 1
  rw [fetch, memRead_congr rfl rfl h, memRead_congr rfl rfl hnext]

theorem effAddr_add_one (s : State) (k : Nat) : effAddr s k + 1 = effAddr s (k + 1) := by
  rw [effAddr, effAddr, BitVec.ofNat_add, BitVec.add_assoc]
  rfl

/-- Fx55 stores V0 to Vx, register k at I + k (R194). -/
theorem memRead_execNext_ldMemVx {x k : RegIdx} (h : k ≤ x) (s : State) :
    memRead (effAddr s k.val) (execNext (.ldMemVx x) s) = getV k s := by
  have hlt : k.val < (regBlock x s).length := by rw [regBlock_length]; exact Nat.lt_succ_of_le h
  have hlen : (regBlock x s).length ≤ 4096 := by rw [regBlock_length]; omega
  calc memRead (effAddr s k.val) (execNext (.ldMemVx x) s)
      = memRead (effAddr s 0 + BitVec.ofNat 16 k.val) (storeBytes (effAddr s 0) (regBlock x s) s) := by
        rw [effAddr_zero_add]; rfl
    _ = (regBlock x s)[k.val] := memRead_storeBytes_inside _ _ _ hlen _ hlt
    _ = getV k s := regBlock_getElem x s k.val hlt

/-- Where register k of Fx55 is stored at the pc, it and the next register are the word fetched there. -/
theorem fetch_execNext_ldMemVx {x k m : RegIdx} {s : State} (hkm : k.val + 1 = m.val) (hm : m ≤ x)
    (hpc : maskAddr (effAddr s k.val) = maskAddr s.pc) :
    fetch (execNext (.ldMemVx x) s) = wordOfBytes (getV k s) (getV m s) := by
  have hkept : (execNext (.ldMemVx x) s).pc = s.pc := execNext_onlyChanged _ s .pc (by simp [writtenParts])
  have hk : k ≤ x := Fin.le_def.2 (by have := Fin.le_def.1 hm; omega)
  have hfetch := fetch_of_maskAddr_eq (hpc.trans (congrArg maskAddr hkept.symm))
  rw [hfetch, effAddr_add_one, hkm, memRead_execNext_ldMemVx hk, memRead_execNext_ldMemVx hm]

/-- Settles O45: the step ends at the address after the store, and there the stored registers are fetched. -/
theorem storeIsSeenByNextFetch : Obligations.StoreIsSeenByNextFetch := by
  unfold Obligations.StoreIsSeenByNextFetch
  intro s x k m hrun hdecode hkm hm hmask
  refine ⟨finish (execNext (.ldMemVx x) (advancePc s)), step_of_exec hrun hdecode (exec_eq _ _), ?pc, ?word⟩
  case pc =>
    rw [finish_pc]
    exact execNext_onlyChanged _ (advancePc s) .pc (by simp [writtenParts])
  case word =>
    rw [fetch_finish, fetch_execNext_ldMemVx (s := advancePc s) hkm hm hmask, wordOfBytes_toNat]
    rfl

end Sys2Proof.Machine

/-! SUPPORT. The encoding family (30_encoding.md): decoder and encoder are inverse to each other, and the decoder, the list of legal
words (R97) and the rows of the opcode table (R94) agree. -/

namespace Sys2Proof

/-! ## The round trip (R92, R94, R130) -/

/-- The decoder takes an encoded instruction apart again, format by format. -/
theorem decodeWord_encode (i : Instr) : decodeWord (encode i) = .ok i := by
  cases i
  case cls | ret => rfl
  case jp | call | ldINnn | jpV0Nnn => simp [encode, decodeWord]
  case seVxKk | sneVxKk | ldVxKk | addVxKk | rndVxKk => simp [encode, decodeWord]
  case seVxVy | sneVxVy | drwVxVyN => simp [encode, decodeWord]
  case ldVxVy | orVxVy | andVxVy | xorVxVy | addVxVy | subVxVy | shrVx | subnVxVy | shlVx =>
    simp only [encode, decodeWord, decodeFamily8, opField_packXyn, xField_packXyn, yField_packXyn, nField_packXyn]
    rfl
  case skpVx | sknpVx => simp [encode, decodeWord, decodeFamilyE]
  case ldVxDt | ldVxK | ldDtVx | ldStVx | addIVx | ldFVx | ldBVx | ldMemVx | ldVxMem =>
    simp [encode, decodeWord, decodeFamilyF]

/-- Settles O1: every field of a packed word is the operand packed into it. -/
theorem decodeEncodeRoundTrip : Obligations.DecodeEncodeRoundTrip := by
  unfold Obligations.DecodeEncodeRoundTrip
  exact decodeWord_encode

section
variable {w : Word} {op : BitVec 4}

theorem packNnn_of_opField (hop : (opField w).val = op.toNat) : packNnn op (nnnField w) = w := by
  simpa [hop] using packNnn_fields w

theorem packXkk_of_fields {kk : Byte} (hop : (opField w).val = op.toNat) (hkk : kkField w = kk) :
    packXkk op (xField w) kk = w := by
  simpa [hop, hkk] using packXkk_fields w

theorem packXyn_of_fields {n : Fin 16} (hop : (opField w).val = op.toNat) (hn : nField w = n) :
    packXyn op (xField w) (yField w) n = w := by
  simpa [hop, hn] using packXyn_fields w

end

section
variable {w : Word} {i : Instr}

theorem encode_of_decodeFamily0 (h : decodeFamily0 w = .ok i) : encode i = w := by
  unfold decodeFamily0 at h
  split at h
  · next hw => cases h; exact hw.symm
  · split at h
    · next hw => cases h; exact hw.symm
    · cases h

theorem encode_of_decodeFamily8 (hop : (opField w).val = 0x8) (h : decodeFamily8 w = .ok i) : encode i = w := by
  unfold decodeFamily8 at h
  split at h
  case h_10 => cases h
  all_goals
    next hn => cases h; exact packXyn_of_fields hop (Fin.ext hn)

theorem encode_of_decodeFamilyE (hop : (opField w).val = 0xE) (h : decodeFamilyE w = .ok i) : encode i = w := by
  unfold decodeFamilyE at h
  split at h
  · next hkk => cases h; exact packXkk_of_fields hop hkk
  · split at h
    · next hkk => cases h; exact packXkk_of_fields hop hkk
    · cases h

theorem encode_of_decodeFamilyF (hop : (opField w).val = 0xF) (h : decodeFamilyF w = .ok i) : encode i = w := by
  unfold decodeFamilyF at h
  split at h
  case h_10 => cases h
  all_goals
    next hkk => cases h; exact packXkk_of_fields hop (BitVec.eq_of_toNat_eq hkk)

/-- The encoder puts a decoded word together again: each arm of the decoder keeps every field it does not test. -/
theorem encode_of_decodeWord (h : decodeWord w = .ok i) : encode i = w := by
  unfold decodeWord at h
  split at h
  case h_1 => exact encode_of_decodeFamily0 h
  case h_2 hop | h_3 hop | h_11 hop | h_12 hop => cases h; exact packNnn_of_opField hop
  case h_4 hop | h_5 hop | h_7 hop | h_8 hop | h_13 hop => cases h; exact packXkk_of_fields hop rfl
  case h_6 hop | h_10 hop =>
    split at h
    · next hn => cases h; exact packXyn_of_fields hop hn
    · cases h
  case h_9 hop => exact encode_of_decodeFamily8 hop h
  case h_14 hop => cases h; exact packXyn_of_fields hop rfl
  case h_15 hop => exact encode_of_decodeFamilyE hop h
  case h_16 =>
    have hop : (opField w).val = 0xF := by simp only [imp_false] at *; omega
    exact encode_of_decodeFamilyF hop h

end

/-- Settles O2: the fields of a word determine it. -/
theorem encodeDecodeRoundTrip : Obligations.EncodeDecodeRoundTrip := by
  unfold Obligations.EncodeDecodeRoundTrip
  intro w i h
  exact encode_of_decodeWord h

end Sys2Proof

/-! SUPPORT. Which words decode: those that are well-formed (R97), and those that select a row of the opcode table (R94). -/

namespace Sys2Proof

/-! ## Legal words and the decoder (R97) -/

/-- Every instruction's word is well-formed and selects the row of its mnemonic. -/
theorem rowMatch : ∀ i : Instr, Laws.RowMatch.Statement i
  | .cls => Laws.RowMatch.cls
  | .ret => Laws.RowMatch.ret
  | .jp nnn => Laws.RowMatch.jp nnn
  | .call nnn => Laws.RowMatch.call nnn
  | .seVxKk x kk => Laws.RowMatch.seVxKk x kk
  | .sneVxKk x kk => Laws.RowMatch.sneVxKk x kk
  | .seVxVy x y => Laws.RowMatch.seVxVy x y
  | .ldVxKk x kk => Laws.RowMatch.ldVxKk x kk
  | .addVxKk x kk => Laws.RowMatch.addVxKk x kk
  | .ldVxVy x y => Laws.RowMatch.ldVxVy x y
  | .orVxVy x y => Laws.RowMatch.orVxVy x y
  | .andVxVy x y => Laws.RowMatch.andVxVy x y
  | .xorVxVy x y => Laws.RowMatch.xorVxVy x y
  | .addVxVy x y => Laws.RowMatch.addVxVy x y
  | .subVxVy x y => Laws.RowMatch.subVxVy x y
  | .shrVx x y => Laws.RowMatch.shrVx x y
  | .subnVxVy x y => Laws.RowMatch.subnVxVy x y
  | .shlVx x y => Laws.RowMatch.shlVx x y
  | .sneVxVy x y => Laws.RowMatch.sneVxVy x y
  | .ldINnn nnn => Laws.RowMatch.ldINnn nnn
  | .jpV0Nnn nnn => Laws.RowMatch.jpV0Nnn nnn
  | .rndVxKk x kk => Laws.RowMatch.rndVxKk x kk
  | .drwVxVyN x y n => Laws.RowMatch.drwVxVyN x y n
  | .skpVx x => Laws.RowMatch.skpVx x
  | .sknpVx x => Laws.RowMatch.sknpVx x
  | .ldVxDt x => Laws.RowMatch.ldVxDt x
  | .ldVxK x => Laws.RowMatch.ldVxK x
  | .ldDtVx x => Laws.RowMatch.ldDtVx x
  | .ldStVx x => Laws.RowMatch.ldStVx x
  | .addIVx x => Laws.RowMatch.addIVx x
  | .ldFVx x => Laws.RowMatch.ldFVx x
  | .ldBVx x => Laws.RowMatch.ldBVx x
  | .ldMemVx x => Laws.RowMatch.ldMemVx x
  | .ldVxMem x => Laws.RowMatch.ldVxMem x

theorem wordWellFormed_of_decode_ok {w : Word} {i : Instr} (h : decodeWord w = .ok i) : wordWellFormed w = true := by
  rw [← encode_of_decodeWord h]
  exact (rowMatch i).1

theorem decode_error_iff (w : Word) : (∃ e, decodeWord w = .error e) ↔ wordWellFormed w = false := by
  constructor
  · rintro ⟨e, he⟩
    exact Machine.wordWellFormed_of_decode_error he
  · intro hw
    cases h : decodeWord w with
    | error e => exact ⟨e, rfl⟩
    | ok i => exact absurd (wordWellFormed_of_decode_ok h) (by simp [hw])

/-- Settles O4: the words that are not well-formed, read off family by family. -/
theorem illegalWordsByFamily : Obligations.IllegalWordsByFamily := by
  unfold Obligations.IllegalWordsByFamily
  intro w
  rw [decode_error_iff]
  unfold wordWellFormed
  split
  case h_1 hop => simp [hop, wellFormed0]
  case h_2 hop | h_4 hop => simp [hop, wellFormed5and9]
  case h_3 hop => simp [hop, wellFormed8]; omega
  case h_5 hop => simp [hop, wellFormedE]
  case h_6 hop => simp [hop, wellFormedF]
  case h_7 h0 h5 h8 h9 hE hF =>
    simp only [imp_false] at h0 h5 h8 h9 hE hF
    simp only [h0, h5, h8, h9, hE, hF, false_and, or_self, Bool.true_eq_false]

/-! ## Legal words and the rows of the opcode table (R94) -/

/-- The bits that select within the family of a word: all of them in family 0, the low nibble in 5, 8 and 9, the low byte in
E and F, beside the top nibble (R95, R96). -/
def familyMask (p : Word) : Word :=
  match (opField p).val with
  | 0x0 => 0xFFFF
  | 0x5 | 0x8 | 0x9 => 0xF00F
  | 0xE | 0xF => 0xF0FF
  | _ => 0xF000

/-- A row's mask is its family's, and its pattern is a well-formed word. -/
theorem opcodeTable_mask_and_pattern : ∀ r ∈ opcodeTable, r.mask = familyMask r.pattern ∧ wordWellFormed r.pattern = true := by decide

/-- A field that the mask covers is the pattern's. -/
theorem extractLsb'_of_and {w m p : Word} {start len : Nat} (h : w &&& m = p)
    (hm : m.extractLsb' start len = BitVec.allOnes len) : w.extractLsb' start len = p.extractLsb' start len := by
  rw [← h, BitVec.extractLsb'_and, hm, BitVec.and_allOnes]

/-- Whether a word is well-formed is decided by the bits of its family's mask. -/
theorem wordWellFormed_of_familyMask {w p : Word} (h : w &&& familyMask p = p) : wordWellFormed w = wordWellFormed p := by
  have hop : opField w = opField p := by
    refine congrArg BitVec.toFin (extractLsb'_of_and h ?_)
    unfold familyMask; split <;> rfl
  rw [wordWellFormed_fields, wordWellFormed_fields, hop]
  unfold familyMask at h
  split at h
  case h_1 =>
    have hw : w = p := BitVec.and_allOnes.symm.trans h
    rw [hw]
  case h_2 | h_3 | h_4 =>
    have hn : nField w = nField p := congrArg BitVec.toFin (extractLsb'_of_and h rfl)
    simp only [*]
  case h_5 | h_6 =>
    have hkk : kkField w = kkField p := extractLsb'_of_and h rfl
    simp only [*]
  case h_7 => simp_all

theorem wordWellFormed_of_rowSelects {w : Word} {r : OpcodeRow} (hr : r ∈ opcodeTable) (h : rowSelects r w = true) :
    wordWellFormed w = true := by
  obtain ⟨hmask, hpattern⟩ := opcodeTable_mask_and_pattern r hr
  rw [← hpattern]
  exact wordWellFormed_of_familyMask (hmask ▸ beq_iff_eq.1 h)

/-- A word that decodes selects the row of its instruction's mnemonic. -/
theorem rowSelects_of_decode_ok {w : Word} {i : Instr} (h : decodeWord w = .ok i) :
    ∃ r ∈ opcodeTable, r.mnemonic = mnemonicOf i ∧ rowSelects r w = true := by
  have hrow := (rowMatch i).2
  rwa [encode_of_decodeWord h] at hrow

theorem decode_ok_of_rowSelects {w : Word} {r : OpcodeRow} (hr : r ∈ opcodeTable) (h : rowSelects r w = true) :
    ∃ i, decodeWord w = .ok i := by
  cases hd : decodeWord w with
  | ok i => exact ⟨i, rfl⟩
  | error e =>
    have hw := (decode_error_iff w).1 ⟨e, hd⟩
    exact absurd (wordWellFormed_of_rowSelects hr h) (by simp [hw])

/-- No row bears another's mnemonic. -/
theorem opcodeTable_mnemonic_inj : ∀ r ∈ opcodeTable, ∀ q ∈ opcodeTable, r.mnemonic = q.mnemonic → r = q := by decide

/-- Two rows whose patterns agree under both masks are one row. -/
theorem opcodeTable_pattern_inj : ∀ r ∈ opcodeTable, ∀ q ∈ opcodeTable,
    r.pattern &&& q.mask = q.pattern &&& r.mask → r = q := by decide

/-- No word selects two rows: the word under both masks would be both patterns under the other's mask. -/
theorem opcodeTable_disjoint {w : Word} {r q : OpcodeRow} (hr : r ∈ opcodeTable) (hq : q ∈ opcodeTable)
    (hrw : rowSelects r w = true) (hqw : rowSelects q w = true) : r = q := by
  apply opcodeTable_pattern_inj r hr q hq
  calc r.pattern &&& q.mask = w &&& r.mask &&& q.mask := by rw [beq_iff_eq.1 hrw]
    _ = w &&& q.mask &&& r.mask := by rw [BitVec.and_assoc, BitVec.and_comm r.mask, BitVec.and_assoc]
    _ = q.pattern &&& r.mask := by rw [beq_iff_eq.1 hqw]

/-- A word selects a row exactly when it decodes to an instruction of the row's mnemonic. -/
theorem rowSelects_iff_decode {w : Word} {r : OpcodeRow} (hr : r ∈ opcodeTable) :
    rowSelects r w = true ↔ ∃ i, decodeWord w = .ok i ∧ mnemonicOf i = r.mnemonic := by
  constructor
  · intro h
    obtain ⟨i, hi⟩ := decode_ok_of_rowSelects hr h
    obtain ⟨q, hq, hname, hsel⟩ := rowSelects_of_decode_ok hi
    exact ⟨i, hi, by rw [← hname, opcodeTable_disjoint hr hq h hsel]⟩
  · rintro ⟨i, hi, hname⟩
    obtain ⟨q, hq, hqname, hsel⟩ := rowSelects_of_decode_ok hi
    rwa [opcodeTable_mnemonic_inj r hr q hq (hname.symm.trans hqname.symm)]

/-- A word is illegal exactly when no row selects it. -/
theorem no_rowSelects_iff_decode_error (w : Word) :
    (∀ r ∈ opcodeTable, rowSelects r w = false) ↔ ∃ e, decodeWord w = .error e := by
  constructor
  · intro hnone
    cases h : decodeWord w with
    | error e => exact ⟨e, rfl⟩
    | ok i =>
      obtain ⟨r, hr, -, hsel⟩ := rowSelects_of_decode_ok h
      exact absurd hsel (by simp [hnone r hr])
  · rintro ⟨e, he⟩ r hr
    refine Bool.eq_false_iff.2 fun hsel => ?_
    obtain ⟨i, hi⟩ := decode_ok_of_rowSelects hr hsel
    exact nomatch he.symm.trans hi

/-- Settles O3: the three clauses are the lemmas above, row by row. -/
theorem decoderAgreesWithOpcodeTable : Obligations.DecoderAgreesWithOpcodeTable := by
  unfold Obligations.DecoderAgreesWithOpcodeTable
  exact ⟨fun _ _ hr => rowSelects_iff_decode hr, fun _ _ hr _ hq => opcodeTable_disjoint hr hq, no_rowSelects_iff_decode_error⟩

/-- Settles O9: a word that no row selects does not decode, and the step takes the fault. -/
theorem illegalWordRaisesDecodeError : Obligations.IllegalWordRaisesDecodeError := by
  unfold Obligations.IllegalWordRaisesDecodeError
  intro s hrun hnone
  obtain ⟨e, he⟩ := (no_rowSelects_iff_decode_error _).1 hnone
  exact ⟨_, Machine.step_of_decode_error hrun he, rfl, rfl, rfl, rfl⟩

/-- Settles O5: the decoder computes on each word. -/
theorem sampleWordsDecode : Obligations.SampleWordsDecode := by
  unfold Obligations.SampleWordsDecode
  exact ⟨rfl, rfl, rfl, rfl, rfl, rfl, rfl, rfl⟩

end Sys2Proof

/-! SUPPORT. The cycle family (40_cycle_and_dispatch.md): what a step makes of the instruction it decodes, which step faults, and what a
step does to the timers. -/

namespace Sys2Proof.Machine

/-! ## The phases of a step (R120, R121) -/

/-- Settles O8: the halted check comes first. -/
theorem haltedStepChangesNothing : Obligations.HaltedStepChangesNothing := by
  unfold Obligations.HaltedStepChangesNothing
  exact fun s hs => step_of_halted hs

theorem finish_eq_fields (t : State) : finish t = if halted t then t else
    { t with dt := if t.dt = 0 then 0 else t.dt - 1, st := if t.st = 0 then 0 else t.st - 1,
             inputs := t.inputs.tail, inputIndex := t.inputIndex + 1 } := rfl

/-- Settles O6: the state with the pc advanced is `advancePc`'s, and what follows execute is `finish`. -/
theorem stepRunsDecodedInstruction : Obligations.StepRunsDecodedInstruction := by
  unfold Obligations.StepRunsDecodedInstruction
  intro s t i hrun hdecode hexec
  rw [step_of_exec hrun hdecode hexec, finish_eq_fields]

section
variable {s : State} {i : Instr} (hrun : ¬ halted s) (hdecode : decodeWord (fetch s) = .ok i)
include hrun hdecode

theorem step_of_decode_ok : step s = .next (finish (execNext i (advancePc s))) :=
  step_of_exec hrun hdecode (exec_eq i _)

/-- The timers after a completed step: those the instruction leaves, each decayed once (R127). -/
theorem timers_of_completed_step {t : State} (hstep : step s = .next t) (ht : ¬ halted t) :
    t.dt.toNat = (execNext i (advancePc s)).dt.toNat - 1 ∧ t.st.toNat = (execNext i (advancePc s)).st.toNat - 1 := by
  obtain rfl : finish (execNext i (advancePc s)) = t :=
    Host.Outcome.next.inj ((step_of_decode_ok hrun hdecode).symm.trans hstep)
  rw [halted_finish] at ht
  rw [finish_of_safe ht]
  exact ⟨decay_toNat _, decay_toNat _⟩

end

/-! ## Faults (R126, R217, R231) -/

/-- A machine that runs, and whose latch is kept, has no cause and the code 0. -/
theorem cause_and_code_of_fault_eq {s t : State} (hrun : ¬ halted s) (h : t.fault = s.fault) :
    (t.fault.cause, (causeCode t.fault.cause).toNat) = (.none, 0) := by
  have hnone : s.fault.cause = .none := Classical.not_not.1 hrun
  rw [h, hnone]
  rfl

/-- Settles O11: an illegal word faults, RET and CALL fault at the ends of the stack, and every other instruction keeps the latch. -/
theorem stepFaultsExactlyWhen : Obligations.StepFaultsExactlyWhen := by
  unfold Obligations.StepFaultsExactlyWhen
  intro s hrun
  cases hdecode : decodeWord (fetch s) with
  | error e => exact ⟨_, step_of_decode_error hrun hdecode, rfl⟩
  | ok i =>
    refine ⟨_, step_of_decode_ok hrun hdecode, ?_⟩
    rw [finish_fault]
    cases i with
    | ret =>
      by_cases h : s.sp.val = 0
      · rw [execNext_ret_of_empty (s := advancePc s) h, if_pos h]
        rfl
      · rw [execNext_ret_of_pos (s := advancePc s) (Nat.pos_of_ne_zero h), if_neg h]
        exact cause_and_code_of_fault_eq hrun rfl
    | call nnn =>
      by_cases h : s.sp.val = 16
      · rw [execNext_call_of_full nnn (s := advancePc s) h, if_pos h]
        rfl
      · have hlt : s.sp.val < 16 := by omega
        rw [execNext_call_of_lt nnn (s := advancePc s) hlt, if_neg h]
        exact cause_and_code_of_fault_eq hrun rfl
    | _ => exact cause_and_code_of_fault_eq hrun (execNext_onlyChanged _ (advancePc s) .latch (by simp [writtenParts]))

/-! ## The timers (R127, R208) -/

theorem execNext_dt_of_notMem {i : Instr} (s : State) (h : Part.delay ∉ writtenParts i) : (execNext i s).dt = s.dt :=
  execNext_onlyChanged i s .delay h

theorem execNext_st_of_notMem {i : Instr} (s : State) (h : Part.sound ∉ writtenParts i) : (execNext i s).st = s.st :=
  execNext_onlyChanged i s .sound h

/-- Settles O13: Fx15 sets DT and Fx18 sets ST, no other instruction writes a timer, and the decay follows. -/
theorem timersDecayOncePerCompletedStep : Obligations.TimersDecayOncePerCompletedStep := by
  unfold Obligations.TimersDecayOncePerCompletedStep
  intro s t i hrun hdecode hstep ht
  obtain ⟨hdt, hst⟩ := timers_of_completed_step hrun hdecode hstep ht
  rw [hdt, hst]
  constructor
  · cases i with
    | ldDtVx x => rfl
    | _ => exact congrArg (fun b : Byte => b.toNat - 1) (execNext_dt_of_notMem (advancePc s) (by simp [writtenParts]))
  · cases i with
    | ldStVx x => rfl
    | _ => exact congrArg (fun b : Byte => b.toNat - 1) (execNext_st_of_notMem (advancePc s) (by simp [writtenParts]))

/-! ## A jump to itself (R131) -/

theorem decayTimers_of_zero {s : State} (hdt : s.dt = 0) (hst : s.st = 0) : decayTimers s = s := by
  have hd : decay s.dt = s.dt := by rw [hdt]; rfl
  have hs : decay s.st = s.st := by rw [hst]; rfl
  rw [decayTimers, hd, hs]

/-- A jump to its own address undoes the advance of the pc and does nothing else. -/
theorem execNext_jp_to_self {s : State} {nnn : Addr12} (h : s.pc.toNat = nnn.toNat) :
    execNext (.jp nnn) (advancePc s) = s := by
  have hpc : zextAddr nnn = s.pc := BitVec.eq_of_toNat_eq (by simp [h]; omega)
  calc execNext (.jp nnn) (advancePc s) = { s with pc := zextAddr nnn } := rfl
    _ = s := by rw [hpc]

/-- Settles O32: the jump leads back to the state it started in, and timers at zero stay there. -/
theorem jumpToSelfIsFixedPoint : Obligations.JumpToSelfIsFixedPoint := by
  unfold Obligations.JumpToSelfIsFixedPoint
  intro s nnn hrun hdecode hpc hdt hst
  rw [step_of_decode_ok hrun hdecode, execNext_jp_to_self hpc, finish_of_safe hrun, decayTimers_of_zero hdt hst]
  rfl

end Sys2Proof.Machine

/-! SUPPORT. The display family (41_display.md). The blitter's laws are stated about `drawRows`; here they are read through `SpriteCovers`,
which says in numbers where the set bits of a sprite fall. -/

namespace Sys2Proof

/-! ## Which word is an instruction -/

/-- One word decodes to an instruction: its own encoding. -/
theorem decodeWord_eq_ok_iff {w : Word} {i : Instr} : decodeWord w = .ok i ↔ w = encode i :=
  ⟨fun h => (encode_of_decodeWord h).symm, fun h => h ▸ decodeWord_encode i⟩

theorem ofNat_eq_packXyn (op : BitVec 4) (x y n : Fin 16) :
    BitVec.ofNat 16 (op.toNat * 4096 + 256 * x.val + 16 * y.val + n.val) = packXyn op x y n := by
  apply BitVec.eq_of_toNat_eq
  rw [packXyn_toNat, BitVec.toNat_ofNat]
  omega

end Sys2Proof

namespace Sys2Proof.Machine

/-- Settles O22: one word is the encoding of CLS, and the framebuffer it leaves is the clear one. -/
theorem clearScreen : Obligations.ClearScreen := by
  unfold Obligations.ClearScreen
  exact ⟨fun _ => decodeWord_eq_ok_iff, fun s => ⟨_, exec_eq .cls s, getPixel_clear, execNext_onlyChanged .cls s⟩⟩

/-! ## The flag as a byte -/

theorem flagByte_eq_one_iff (b : Bool) : flagByte b = 1 ↔ b = true := by cases b <;> decide

theorem flagByte_eq_zero_iff (b : Bool) : flagByte b = 0 ↔ ¬ b = true := by cases b <;> decide

/-! ## The covered pixels (R141, R142) -/

theorem pixelColumn_originColumn_eq_iff (b : Byte) (c : Nat) (px : Fin 64) :
    pixelColumn (originColumn b) c = px ↔ px.val = (b.toNat % 64 + c) % 64 :=
  Fin.ext_iff.trans eq_comm

theorem pixelRow_originRow_eq_iff (b : Byte) (r : Nat) (py : Fin 32) :
    pixelRow (originRow b) r = py ↔ py.val = (b.toNat % 32 + r) % 32 :=
  Fin.ext_iff.trans eq_comm

/-- The covered pixels in the blitter's own words. -/
theorem spriteCovers_iff (x y : RegIdx) (n : Nat) (s : State) (px : Fin 64) (py : Fin 32) :
    SpriteCovers x y n s px py ↔ ∃ r < n, pixelRow (originRow (getV y s)) r = py ∧
      ∃ c < 8, rowBit s r c = true ∧ pixelColumn (originColumn (getV x s)) c = px := by
  simp only [pixelColumn_originColumn_eq_iff, pixelRow_originRow_eq_iff]
  constructor
  · rintro ⟨r, hr, c, hc, hbit, hx, hy⟩
    exact ⟨r, hr, hy, c, hc, hbit, hx⟩
  · rintro ⟨r, hr, hy, c, hc, hbit, hx⟩
    exact ⟨r, hr, c, hc, hbit, hx, hy⟩

/-- The origin, I and memory decide which pixels are covered. -/
theorem spriteCovers_congr {x y : RegIdx} {s t : State} (hx : getV x t = getV x s) (hy : getV y t = getV y s) (hi : t.i = s.i)
    (hmem : ∀ a, memRead a t = memRead a s) (n : Nat) (px : Fin 64) (py : Fin 32) :
    SpriteCovers x y n t px py ↔ SpriteCovers x y n s px py := by
  simp only [SpriteCovers, hx, hy, hi, hmem]

/-! ## One draw (R141, R143) -/

section
variable (x y : RegIdx) (n : Fin 16) (s : State)

theorem execNext_drwVxVyN_fb : (execNext (.drwVxVyN x y n) s).fb =
    (drawSprite (originColumn (getV x s)) (originRow (getV y s)) n.val s).1 := rfl

theorem getV_regF_execNext_drwVxVyN : getV regF (execNext (.drwVxVyN x y n) s) =
    flagByte (drawSprite (originColumn (getV x s)) (originRow (getV y s)) n.val s).2 :=
  (getV_setV _ regF regF _).trans (if_pos rfl)

theorem getPixel_execNext_drwVxVyN (px : Fin 64) (py : Fin 32) :
    getPixel (execNext (.drwVxVyN x y n) s).fb px py = true ↔
      ¬ (getPixel s.fb px py = true ↔ SpriteCovers x y n.val s px py) := by
  rw [execNext_drwVxVyN_fb, drawSprite, getPixel_drawRows _ _ _ _ (by omega), spriteCovers_iff]

/-- The collision bit: some covered pixel was on before the draw. -/
theorem drawSprite_hit_iff : (drawSprite (originColumn (getV x s)) (originRow (getV y s)) n.val s).2 = true ↔
    ∃ px py, SpriteCovers x y n.val s px py ∧ getPixel s.fb px py = true := by
  rw [drawSprite, drawRows_hit _ _ _ _ (by omega)]
  simp only [Bool.false_eq_true, false_or, spriteCovers_iff]
  constructor
  · rintro ⟨r, hr, c, hc, hbit, hon⟩
    exact ⟨_, _, ⟨r, hr, rfl, c, hc, hbit, rfl⟩, hon⟩
  · rintro ⟨_, _, ⟨r, hr, rfl, c, hc, hbit, rfl⟩, hon⟩
    exact ⟨r, hr, c, hc, hbit, hon⟩

theorem regF_execNext_drwVxVyN_eq_one_iff : getV regF (execNext (.drwVxVyN x y n) s) = 1 ↔
    ∃ px py, SpriteCovers x y n.val s px py ∧ getPixel s.fb px py = true := by
  rw [getV_regF_execNext_drwVxVyN, flagByte_eq_one_iff, drawSprite_hit_iff]

theorem regF_execNext_drwVxVyN_eq_zero_iff : getV regF (execNext (.drwVxVyN x y n) s) = 0 ↔
    ¬ ∃ px py, SpriteCovers x y n.val s px py ∧ getPixel s.fb px py = true := by
  rw [getV_regF_execNext_drwVxVyN, flagByte_eq_zero_iff, drawSprite_hit_iff]

end

/-- Settles O23: pixels and VF by the laws above, the rest by the frame of every instruction. -/
theorem drawSprite_spec : Obligations.DrawSprite := by
  unfold Obligations.DrawSprite
  intro x y n
  have hword := ofNat_eq_packXyn 0xD x y n
  exact ⟨decodeWord_eq_ok_iff.2 hword, fun s => ⟨_, exec_eq (.drwVxVyN x y n) s, getPixel_execNext_drwVxVyN x y n s,
    (regF_execNext_drwVxVyN_eq_one_iff x y n s).2, (regF_execNext_drwVxVyN_eq_zero_iff x y n s).2,
    execNext_regsKept (.drwVxVyN x y n) s, execNext_onlyChanged (.drwVxVyN x y n) s⟩⟩

/-! ## Two draws from one origin (R144) -/

section
variable {x y : RegIdx} (hx : x ≠ 15) (hy : y ≠ 15) (n : Fin 16) (s : State) (px : Fin 64) (py : Fin 32)
include hx hy

/-- A draw whose origin is not in VF leaves the next one the same pixels to cover. -/
theorem spriteCovers_execNext_drwVxVyN :
    SpriteCovers x y n.val (execNext (.drwVxVyN x y n) s) px py ↔ SpriteCovers x y n.val s px py := by
  have hregs := execNext_regsKept (.drwVxVyN x y n) s
  have hframe := execNext_onlyChanged (.drwVxVyN x y n) s
  exact spriteCovers_congr (hregs x (beq_false_of_ne hx)) (hregs y (beq_false_of_ne hy))
    (hframe .index (by simp [writtenParts])) (hframe .memory (by simp [writtenParts])) _ px py

/-- What one draw inverts, the second inverts back. -/
theorem getPixel_execNext_drwVxVyN_twice :
    getPixel (execNext (.drwVxVyN x y n) (execNext (.drwVxVyN x y n) s)).fb px py = getPixel s.fb px py := by
  rw [Bool.eq_iff_iff, getPixel_execNext_drwVxVyN, spriteCovers_execNext_drwVxVyN hx hy, getPixel_execNext_drwVxVyN]
  by_cases hcov : SpriteCovers x y n.val s px py
  · simp only [hcov, iff_true, Classical.not_not]
  · simp only [hcov, iff_false, Classical.not_not]

/-- The second draw meets a pixel that is on exactly where the first met one that was off. -/
theorem covered_and_on_after_draw_iff :
    SpriteCovers x y n.val (execNext (.drwVxVyN x y n) s) px py ∧ getPixel (execNext (.drwVxVyN x y n) s).fb px py = true ↔
      SpriteCovers x y n.val s px py ∧ getPixel s.fb px py = false := by
  rw [spriteCovers_execNext_drwVxVyN hx hy, getPixel_execNext_drwVxVyN, ← Bool.not_eq_true]
  exact and_congr_right fun hcov => by rw [iff_true_right hcov]

end

/-- Settles O24: the second draw inverts the same pixels back, and its VF is that of a draw on the inverted ones. -/
theorem doubleDrawRestores : Obligations.DoubleDrawRestores := by
  unfold Obligations.DoubleDrawRestores
  intro x y n s hx hy
  refine ⟨_, _, exec_eq _ s, exec_eq _ _, framebuffer_ext (getPixel_execNext_drwVxVyN_twice hx hy n s), ?flag, ?bit⟩
  case flag =>
    rw [regF_execNext_drwVxVyN_eq_one_iff]
    simp only [covered_and_on_after_draw_iff hx hy]
  case bit =>
    rw [regF_execNext_drwVxVyN_eq_one_iff, regF_execNext_drwVxVyN_eq_zero_iff]
    exact (Classical.em _).symm

end Sys2Proof.Machine

/-! SUPPORT. The control-flow family (42_control_flow.md): jumps and skips set the pc alone, CALL and RET move one entry over the call
stack or fault at its ends, and a call followed by a return comes back. -/

namespace Sys2Proof

/-! ## The words of the formats NNN and XKK (R92) -/

theorem ofNat_eq_packNnn (op : BitVec 4) (nnn : Addr12) : BitVec.ofNat 16 (op.toNat * 4096 + nnn.toNat) = packNnn op nnn := by
  apply BitVec.eq_of_toNat_eq
  rw [packNnn_toNat, BitVec.toNat_ofNat]
  omega

theorem ofNat_eq_packXkk (op : BitVec 4) (x : RegIdx) (kk : Byte) :
    BitVec.ofNat 16 (op.toNat * 4096 + 256 * x.val + kk.toNat) = packXkk op x kk := by
  apply BitVec.eq_of_toNat_eq
  rw [packXkk_toNat, BitVec.toNat_ofNat]
  omega

/-! ## Families 5 and 9 (R96) -/

theorem decodeWord_packXyn_5 (x y n : Fin 16) :
    decodeWord (packXyn 0x5 x y n) = if n = 0 then .ok (.seVxVy x y) else .error .nonzeroLowNibble := by
  simp [decodeWord]

theorem decodeWord_packXyn_9 (x y n : Fin 16) :
    decodeWord (packXyn 0x9 x y n) = if n = 0 then .ok (.sneVxVy x y) else .error .nonzeroLowNibble := by
  simp [decodeWord]

end Sys2Proof

namespace Sys2Proof.Machine

/-! ## Narrower frames -/

/-- A part that stayed the same can be dropped from the frame. -/
theorem OnlyChanged.drop {parts fewer : List Part} {s t : State} (h : OnlyChanged parts s t) {q : Part} (hq : q.Same s t)
    (hfewer : ∀ p ∈ parts, p = q ∨ p ∈ fewer) : OnlyChanged fewer s t := by
  intro p hp
  by_cases hpq : p = q
  · exact hpq ▸ hq
  · exact h p fun hmem => (hfewer p hmem).elim hpq hp

theorem onlyChanged_sp_pc (s : State) (n : Fin 17) (a : Word) : OnlyChanged [.sp, .pc] s { s with sp := n, pc := a } :=
  (onlyChanged_ret s n a s.fault).drop (q := .latch) rfl (by decide)

theorem onlyChanged_stack_sp_pc (s : State) (k : Vector Word 16) (n : Fin 17) (a : Word) :
    OnlyChanged [.stack, .sp, .pc] s { s with stack := k, sp := n, pc := a } :=
  (onlyChanged_call s k n a s.fault).drop (q := .latch) rfl (by decide)

theorem onlyChanged_raise (c : FaultCause) (i : Instr) (s : State) : OnlyChanged [.pc, .latch] s (raise c i s) :=
  (onlyChanged_ret s s.sp (s.pc - 2) ⟨c, s.pc - 2, encode i⟩).drop (q := .sp) rfl (by decide)

/-! ## Jumps (R151, R157) -/

theorem zextAddr_toNat (a : Addr12) : (zextAddr a).toNat = a.toNat := BitVec.toNat_setWidth_of_le (by decide)

/-- A byte and a 12-bit address sum up within 16 bits. -/
theorem zextByte_add_zextAddr_toNat (b : Byte) (a : Addr12) : (zextByte b + zextAddr a).toNat = b.toNat + a.toNat := by
  have hb : (zextByte b).toNat = b.toNat := BitVec.toNat_setWidth_of_le (by decide)
  rw [BitVec.toNat_add, hb, zextAddr_toNat]
  omega

/-- Settles O26: the pc is the address operand, which has 12 bits. -/
theorem jumpSetsPc : Obligations.JumpSetsPc := by
  unfold Obligations.JumpSetsPc
  intro nnn
  have hword := ofNat_eq_packNnn 0x1 nnn
  have hpc := zextAddr_toNat nnn
  have hlt : (zextAddr nnn).toNat < 0x1000 := by rw [hpc]; exact nnn.isLt
  exact ⟨decodeWord_eq_ok_iff.2 hword, fun s => ⟨_, exec_eq (.jp nnn) s, hpc, hlt,
    execNext_onlyChanged (.jp nnn) s⟩⟩

/-- Settles O31: the sum of a byte and a 12-bit address does not wrap. -/
theorem jumpWithOffset : Obligations.JumpWithOffset := by
  unfold Obligations.JumpWithOffset
  intro nnn
  have hword := ofNat_eq_packNnn 0xB nnn
  exact ⟨decodeWord_eq_ok_iff.2 hword, fun s => ⟨_, exec_eq (.jpV0Nnn nnn) s, zextByte_add_zextAddr_toNat (getV 0 s) nnn,
    execNext_onlyChanged (.jpV0Nnn nnn) s⟩⟩

/-! ## Skips (R153 to R156, R159) -/

theorem skipIf_beq_pc (a b : Byte) (s : State) : (skipIf (a == b) s).pc = if a.toNat = b.toNat then s.pc + 2 else s.pc := by
  simp only [skipIf_pc, beq_iff_eq, BitVec.toNat_inj]

theorem skipIf_bne_pc (a b : Byte) (s : State) : (skipIf (a != b) s).pc = if a.toNat = b.toNat then s.pc else s.pc + 2 := by
  simp only [skipIf_pc, bne_iff_ne, ite_not, BitVec.toNat_inj]

/-- Settles O29: both words are encodings, and both meanings are one conditional skip. -/
theorem skipOnImmediate : Obligations.SkipOnImmediate := by
  unfold Obligations.SkipOnImmediate
  intro x kk
  have hse := ofNat_eq_packXkk 0x3 x kk
  have hsne := ofNat_eq_packXkk 0x4 x kk
  exact ⟨decodeWord_eq_ok_iff.2 hse, decodeWord_eq_ok_iff.2 hsne, fun s =>
    ⟨_, _, exec_eq (.seVxKk x kk) s, exec_eq (.sneVxKk x kk) s,
      skipIf_beq_pc (getV x s) kk s, execNext_onlyChanged (.seVxKk x kk) s,
      skipIf_bne_pc (getV x s) kk s, execNext_onlyChanged (.sneVxKk x kk) s⟩⟩

/-- Settles O30: the decoder tests the low nibble, and both meanings are one conditional skip. -/
theorem skipOnRegister : Obligations.SkipOnRegister := by
  unfold Obligations.SkipOnRegister
  intro x y n
  have hse := ofNat_eq_packXyn 0x5 x y n
  have hsne := ofNat_eq_packXyn 0x9 x y n
  exact ⟨(congrArg decodeWord hse).trans (decodeWord_packXyn_5 x y n),
    (congrArg decodeWord hsne).trans (decodeWord_packXyn_9 x y n), fun s =>
    ⟨_, _, exec_eq (.seVxVy x y) s, exec_eq (.sneVxVy x y) s,
      skipIf_beq_pc (getV x s) (getV y s) s, execNext_onlyChanged (.seVxVy x y) s,
      skipIf_bne_pc (getV x s) (getV y s) s, execNext_onlyChanged (.sneVxVy x y) s⟩⟩

/-! ## CALL and RET (R150, R152, R158) -/

section
variable {s : State} {k : Fin 16}

/-- RET from depth `k + 1`: the entry at `k` is the top one. -/
theorem execNext_ret_of_sp_eq (h : s.sp.val = k.val + 1) :
    execNext .ret s = { s with pc := s.stack[k], sp := k.castSucc } := by
  have hpos : 0 < s.sp.val := by omega
  simp only [execNext_ret_of_pos hpos, h, Nat.add_sub_cancel]
  rfl

/-- CALL at depth `k`: the entry at `k` is the first free one. -/
theorem execNext_call_of_sp_eq (nnn : Addr12) (h : s.sp.val = k.val) :
    execNext (.call nnn) s = { s with pc := zextAddr nnn, stack := s.stack.set k s.pc, sp := k.succ } := by
  have hlt : s.sp.val < 16 := by omega
  simp only [execNext_call_of_lt nnn hlt, h]
  rfl

end

/-- Settles O25: RET pops at every depth above 0, and at depth 0 its next state is the fault's. -/
theorem returnPops : Obligations.ReturnPops := by
  unfold Obligations.ReturnPops
  refine ⟨fun _ => decodeWord_eq_ok_iff, ?pop, ?underflow⟩
  case pop =>
    intro s k hsp
    have hnext := execNext_ret_of_sp_eq hsp
    exact ⟨_, (exec_eq .ret s).trans (congrArg _ hnext), rfl, rfl, onlyChanged_sp_pc s _ _⟩
  case underflow =>
    intro s hsp
    have hnext := execNext_ret_of_empty hsp
    exact ⟨_, (exec_eq .ret s).trans (congrArg _ hnext), nofun, rfl, rfl, onlyChanged_raise _ _ s⟩

/-- Settles O27: CALL pushes at every depth below 16, and at depth 16 its next state is the fault's. -/
theorem callPushes : Obligations.CallPushes := by
  unfold Obligations.CallPushes
  intro nnn
  have hword := ofNat_eq_packNnn 0x2 nnn
  refine ⟨decodeWord_eq_ok_iff.2 hword, ?push, ?overflow⟩
  case push =>
    intro s k hsp
    have hnext := execNext_call_of_sp_eq nnn hsp
    have hother : ∀ j : Fin 16, j ≠ k → (s.stack.set k s.pc)[j] = s.stack[j] := fun j hj =>
      Vector.getElem_set_ne k.isLt j.isLt (Fin.val_ne_of_ne hj.symm)
    exact ⟨_, (exec_eq (.call nnn) s).trans (congrArg _ hnext), Vector.getElem_set_self k.isLt, hother, rfl,
      zextAddr_toNat nnn, onlyChanged_stack_sp_pc s _ _ _⟩
  case overflow =>
    intro s hsp
    have hnext := execNext_call_of_full nnn hsp
    refine ⟨_, (exec_eq (.call nnn) s).trans (congrArg _ hnext), nofun, ?_, rfl, onlyChanged_raise _ _ s⟩
    rw [raise_fault]
    exact congrArg _ hword.symm

/-! ## A call followed by a return (95_test_vectors.md S5) -/

@[simp] theorem finish_sp (s : State) : (finish s).sp = s.sp := by
  unfold finish; split <;> rfl

@[simp] theorem finish_stack (s : State) : (finish s).stack = s.stack := by
  unfold finish; split <;> rfl

section
variable {s t : State} {k : Fin 16} (hrun : ¬ halted s) (hstep : step s = .next t)
include hrun hstep

theorem step_call_effect {nnn : Addr12} (hdecode : decodeWord (fetch s) = .ok (.call nnn)) (hsp : s.sp.val = k.val) :
    t.stack = s.stack.set k (s.pc + 2) ∧ t.sp = k.succ ∧ t.fault = s.fault := by
  obtain rfl : finish (execNext (.call nnn) (advancePc s)) = t :=
    Host.Outcome.next.inj ((step_of_decode_ok hrun hdecode).symm.trans hstep)
  rw [finish_stack, finish_sp, finish_fault, execNext_call_of_sp_eq (s := advancePc s) nnn hsp]
  exact ⟨rfl, rfl, rfl⟩

theorem step_ret_effect (hdecode : decodeWord (fetch s) = .ok .ret) (hsp : s.sp.val = k.val + 1) :
    t.pc = s.stack[k] ∧ t.sp = k.castSucc ∧ t.stack = s.stack ∧ t.fault = s.fault := by
  obtain rfl : finish (execNext .ret (advancePc s)) = t :=
    Host.Outcome.next.inj ((step_of_decode_ok hrun hdecode).symm.trans hstep)
  rw [finish_pc, finish_sp, finish_stack, finish_fault, execNext_ret_of_sp_eq (s := advancePc s) hsp]
  exact ⟨rfl, rfl, rfl, rfl⟩

end

/-- Settles O28: the return pops the entry that the call pushed, and neither writes an entry below it. -/
theorem callThenReturnComesBack : Obligations.CallThenReturnComesBack := by
  unfold Obligations.CallThenReturnComesBack
  intro s t u nnn hrun hroom hcall hstep hret hstep'
  let k : Fin 16 := ⟨s.sp.val, hroom⟩
  obtain ⟨hstack, hsp, hfault⟩ := step_call_effect (k := k) hrun hstep hcall rfl
  have hrun' : ¬ halted t := by rwa [halted, hfault]
  obtain ⟨hpc, hspBack, hstackKept, hfault'⟩ := step_ret_effect (k := k) hrun' hstep' hret (by rw [hsp]; rfl)
  refine ⟨?pc, ?sp, ?running, ?entries⟩
  case pc =>
    rw [hpc, hstack]
    exact Vector.getElem_set_self k.isLt
  case sp => rw [hspBack]; rfl
  case running => rwa [halted, hfault']
  case entries =>
    intro j hj
    rw [hstackKept, hstack]
    exact Vector.getElem_set_ne k.isLt j.isLt (Nat.ne_of_gt hj)

end Sys2Proof.Machine

/-! SUPPORT. The ALU family (43_alu.md): the words of family 8, what Vx and VF hold after a write, and the arithmetic of each meaning as
numbers modulo 256 (R182). Everything else stays by the frame of every instruction. -/

namespace Sys2Proof

/-! ## The words of family 8 (R92, R94) -/

theorem decodeWord_family8 {i : Instr} {x y : RegIdx} (n : Fin 16) (h : encode i = packXyn 0x8 x y n) :
    decodeWord (BitVec.ofNat 16 (0x8000 + n.val + 256 * x.val + 16 * y.val)) = .ok i := by
  have hsum : 0x8000 + n.val + 256 * x.val + 16 * y.val = 0x8 * 4096 + 256 * x.val + 16 * y.val + n.val := by omega
  rw [decodeWord_eq_ok_iff, h, hsum]
  exact ofNat_eq_packXyn 0x8 x y n

end Sys2Proof

namespace Sys2Proof.Machine

/-! ## Vx and VF after a write (R181) -/

section
variable (x : RegIdx) (b : Byte) (f : Bool) (s : State)

theorem getV_setV_self : getV x (setV x b s) = b := (getV_setV s x x b).trans (if_pos rfl)

theorem getV_regF_setVThenFlag : getV regF (setVThenFlag x b f s) = flagByte f := getV_setV_self regF _ _

/-- The frame of an instruction: the "writes" column of R36 by registers and by parts. -/
theorem execNext_frame (i : Instr) :
    RegsKeptExcept (writtenRegs i) s (execNext i s) ∧ OnlyChanged (writtenParts i) s (execNext i s) :=
  ⟨execNext_regsKept i s, execNext_onlyChanged i s⟩

end

theorem getV_setVThenFlag_self {x : RegIdx} (hx : x ≠ regF) (b : Byte) (f : Bool) (s : State) :
    getV x (setVThenFlag x b f s) = b :=
  (getV_setV_ne hx.symm _ _).trans (getV_setV_self x b s)

/-! ## Bytes as numbers (R182) -/

theorem byte_sub_toNat (a b : Byte) : (a - b).toNat = (a.toNat + 256 - b.toNat) % 256 := by
  rw [BitVec.toNat_sub]
  omega

theorem byte_shiftRight_one_toNat (a : Byte) : (a >>> 1).toNat = a.toNat / 2 := by
  rw [BitVec.toNat_ushiftRight, Nat.shiftRight_eq_div_pow, Nat.pow_one]

theorem byte_shiftLeft_one_toNat (a : Byte) : (a <<< 1).toNat = 2 * a.toNat % 256 := by
  rw [BitVec.toNat_shiftLeft, Nat.shiftLeft_eq, Nat.pow_one, Nat.mul_comm]

theorem byte_add_complement (a kk : Byte) : a + kk + BitVec.ofNat 8 (256 - kk.toNat) = a := by
  have hcancel : kk + BitVec.ofNat 8 (256 - kk.toNat) = 0#8 := by
    apply BitVec.eq_of_toNat_eq
    rw [BitVec.toNat_add, BitVec.toNat_ofNat, BitVec.toNat_ofNat]
    omega
  rw [BitVec.add_assoc, hcancel, BitVec.add_zero]

/-! ## The flags as numbers (R183) -/

theorem flagByte_decide (p : Prop) [Decidable p] : flagByte (decide p) = if p then 1 else 0 := by
  simp only [flagByte, decide_eq_true_eq]

theorem lowBit_eq (a : Byte) : lowBit a = decide (a.toNat % 2 = 1) := Nat.testBit_zero _

theorem highBit_eq (a : Byte) : highBit a = decide (a.toNat ≥ 128) :=
  (BitVec.msb_eq_getLsbD_last a).symm.trans (BitVec.msb_eq_decide a)

section
variable (x y : RegIdx) (s : State)

theorem getV_regF_execNext_addVxVy : getV regF (execNext (.addVxVy x y) s) =
    if (getV x s).toNat + (getV y s).toNat > 255 then 1 else 0 :=
  (getV_regF_setVThenFlag x _ _ s).trans (flagByte_decide _)

theorem getV_regF_execNext_subVxVy : getV regF (execNext (.subVxVy x y) s) =
    if (getV x s).toNat > (getV y s).toNat then 1 else 0 :=
  (getV_regF_setVThenFlag x _ _ s).trans (flagByte_decide _)

theorem getV_regF_execNext_subnVxVy : getV regF (execNext (.subnVxVy x y) s) =
    if (getV y s).toNat > (getV x s).toNat then 1 else 0 :=
  (getV_regF_setVThenFlag x _ _ s).trans (flagByte_decide _)

theorem getV_regF_execNext_shrVx : getV regF (execNext (.shrVx x y) s) = if (getV x s).toNat % 2 = 1 then 1 else 0 :=
  (getV_regF_setVThenFlag x _ _ s).trans (by rw [lowBit_eq, flagByte_decide])

theorem getV_regF_execNext_shlVx : getV regF (execNext (.shlVx x y) s) = if (getV x s).toNat ≥ 128 then 1 else 0 :=
  (getV_regF_setVThenFlag x _ _ s).trans (by rw [highBit_eq, flagByte_decide])

theorem getV_regF_execNext_shrVx_toNat : (getV regF (execNext (.shrVx x y) s)).toNat = (getV x s).toNat % 2 := by
  rw [getV_regF_execNext_shrVx]
  split
  case isTrue hodd => exact hodd.symm
  case isFalse heven => exact (Nat.mod_two_ne_one.1 heven).symm

theorem getV_regF_execNext_shlVx_toNat : (getV regF (execNext (.shlVx x y) s)).toNat = (getV x s).toNat / 128 := by
  have hlt := (getV x s).isLt
  rw [getV_regF_execNext_shlVx]
  split
  case isTrue hhigh => exact (by omega : 1 = (getV x s).toNat / 128)
  case isFalse hlow => exact (by omega : 0 = (getV x s).toNat / 128)

end

/-! ## The flag table (R183) -/

/-- Settles O21: the five flags by the lemmas above; the six others write Vx alone. -/
theorem flagTable : Obligations.FlagTable := by
  unfold Obligations.FlagTable
  refine ⟨?flags, ?others⟩
  case flags =>
    intro x y s
    exact ⟨_, _, _, _, _, exec_eq (.addVxVy x y) s, exec_eq (.subVxVy x y) s, exec_eq (.shrVx x y) s, exec_eq (.subnVxVy x y) s,
      exec_eq (.shlVx x y) s, getV_regF_execNext_addVxVy x y s, getV_regF_execNext_subVxVy x y s, getV_regF_execNext_shrVx x y s,
      getV_regF_execNext_subnVxVy x y s, getV_regF_execNext_shlVx x y s⟩
  case others =>
    intro x y kk s t hx i hi hexec
    have hwritten : writtenRegs i = (· == x) := by
      simp only [List.mem_cons, List.not_mem_nil, or_false] at hi
      obtain rfl | rfl | rfl | rfl | rfl | rfl := hi <;> rfl
    obtain rfl := execNext_of_exec hexec
    exact execNext_regsKept i s 15 (by rw [hwritten]; exact beq_false_of_ne hx.symm)

/-! ## Loads and immediates (R170, R171) -/

/-- Settles O33: the write itself, and the frame of every instruction. -/
theorem loadImmediate : Obligations.LoadImmediate := by
  unfold Obligations.LoadImmediate
  intro x kk
  have hword := ofNat_eq_packXkk 0x6 x kk
  exact ⟨decodeWord_eq_ok_iff.2 hword, fun s => ⟨_, exec_eq (.ldVxKk x kk) s, getV_setV_self x kk s,
    execNext_frame s (.ldVxKk x kk)⟩⟩

theorem getV_execNext_addVxKk (x : RegIdx) (kk : Byte) (s : State) : getV x (execNext (.addVxKk x kk) s) = getV x s + kk :=
  getV_setV_self x _ s

/-- Settles O34: a byte and its complement add up to 0 modulo 256. -/
theorem addImmediate : Obligations.AddImmediate := by
  unfold Obligations.AddImmediate
  intro x kk
  have hword := ofNat_eq_packXkk 0x7 x kk
  refine ⟨decodeWord_eq_ok_iff.2 hword, fun s => ?_⟩
  have hsum := getV_execNext_addVxKk x kk s
  refine ⟨_, _, exec_eq (.addVxKk x kk) s, ?sum, execNext_regsKept (.addVxKk x kk) s, execNext_onlyChanged (.addVxKk x kk) s,
    exec_eq (.addVxKk x (BitVec.ofNat 8 (256 - kk.toNat))) _, ?restored⟩
  case sum => rw [hsum, BitVec.toNat_add]
  case restored => rw [getV_execNext_addVxKk, hsum, byte_add_complement]

/-! ## Copy and logic (R172 to R175) -/

/-- Settles O35: Vx holds the copy, OR, AND or XOR, which act bit by bit, and no other register is written. -/
theorem moveAndLogic : Obligations.MoveAndLogic := by
  unfold Obligations.MoveAndLogic
  intro x y
  refine ⟨decodeWord_family8 0x0 rfl, decodeWord_family8 0x1 rfl, decodeWord_family8 0x2 rfl, decodeWord_family8 0x3 rfl,
    fun s => ⟨_, _, _, _, exec_eq (.ldVxVy x y) s, exec_eq (.orVxVy x y) s, exec_eq (.andVxVy x y) s, exec_eq (.xorVxVy x y) s,
      getV_setV_self x _ s, ?or, ?and, ?xor, ?frame⟩⟩
  case or =>
    intro b _
    exact (congrArg (·.getLsbD b) (getV_setV_self x _ s)).trans BitVec.getLsbD_or
  case and =>
    intro b _
    exact (congrArg (·.getLsbD b) (getV_setV_self x _ s)).trans BitVec.getLsbD_and
  case xor =>
    intro b _
    exact (congrArg (·.getLsbD b) (getV_setV_self x _ s)).trans BitVec.getLsbD_xor
  case frame =>
    simp only [List.forall_mem_cons]
    exact ⟨execNext_frame s (.ldVxVy x y), execNext_frame s (.orVxVy x y), execNext_frame s (.andVxVy x y),
      execNext_frame s (.xorVxVy x y), nofun⟩

/-! ## Arithmetic with a flag (R176 to R180) -/

section
variable {x : RegIdx} (hx : x ≠ regF) (y : RegIdx) (s : State)
include hx

theorem getV_execNext_addVxVy_toNat :
    (getV x (execNext (.addVxVy x y) s)).toNat = ((getV x s).toNat + (getV y s).toNat) % 256 :=
  (congrArg BitVec.toNat (getV_setVThenFlag_self hx _ _ s)).trans (BitVec.toNat_add _ _)

theorem getV_execNext_subVxVy_toNat :
    (getV x (execNext (.subVxVy x y) s)).toNat = ((getV x s).toNat + 256 - (getV y s).toNat) % 256 :=
  (congrArg BitVec.toNat (getV_setVThenFlag_self hx _ _ s)).trans (byte_sub_toNat _ _)

theorem getV_execNext_subnVxVy_toNat :
    (getV x (execNext (.subnVxVy x y) s)).toNat = ((getV y s).toNat + 256 - (getV x s).toNat) % 256 :=
  (congrArg BitVec.toNat (getV_setVThenFlag_self hx _ _ s)).trans (byte_sub_toNat _ _)

theorem getV_execNext_shrVx_toNat : (getV x (execNext (.shrVx x y) s)).toNat = (getV x s).toNat / 2 :=
  (congrArg BitVec.toNat (getV_setVThenFlag_self hx _ _ s)).trans (byte_shiftRight_one_toNat _)

theorem getV_execNext_shlVx_toNat : (getV x (execNext (.shlVx x y) s)).toNat = 2 * (getV x s).toNat % 256 :=
  (congrArg BitVec.toNat (getV_setVThenFlag_self hx _ _ s)).trans (byte_shiftLeft_one_toNat _)

end

/-- Settles O36: the sum and the carry by the lemmas above. -/
theorem addWithCarry : Obligations.AddWithCarry := by
  unfold Obligations.AddWithCarry
  intro x y
  exact ⟨decodeWord_family8 0x4 rfl, fun s => ⟨_, exec_eq (.addVxVy x y) s, fun hx => getV_execNext_addVxVy_toNat hx y s,
    getV_regF_execNext_addVxVy x y s, execNext_frame s (.addVxVy x y)⟩⟩

/-- Settles O37: both differences and both flags by the lemmas above. -/
theorem subtractBothWays : Obligations.SubtractBothWays := by
  unfold Obligations.SubtractBothWays
  intro x y
  exact ⟨decodeWord_family8 0x5 rfl, decodeWord_family8 0x7 rfl, fun s => ⟨_, _, exec_eq (.subVxVy x y) s, exec_eq (.subnVxVy x y) s,
    fun hx => getV_execNext_subVxVy_toNat hx y s, getV_regF_execNext_subVxVy x y s,
    fun hx => getV_execNext_subnVxVy_toNat hx y s, getV_regF_execNext_subnVxVy x y s,
    execNext_regsKept (.subVxVy x y) s, execNext_onlyChanged (.subVxVy x y) s, execNext_frame s (.subnVxVy x y)⟩⟩

/-- Settles O38: one next state serves every y, because neither meaning reads it. -/
theorem shiftByOne : Obligations.ShiftByOne := by
  unfold Obligations.ShiftByOne
  intro x y
  exact ⟨decodeWord_family8 0x6 rfl, decodeWord_family8 0xE rfl, fun s =>
    ⟨execNext (.shrVx x y) s, execNext (.shlVx x y) s, fun z => exec_eq (.shrVx x z) s, fun z => exec_eq (.shlVx x z) s,
      fun hx => getV_execNext_shrVx_toNat hx y s, getV_regF_execNext_shrVx_toNat x y s,
      fun hx => getV_execNext_shlVx_toNat hx y s, getV_regF_execNext_shlVx_toNat x y s,
      execNext_regsKept (.shrVx x y) s, execNext_onlyChanged (.shrVx x y) s, execNext_frame s (.shlVx x y)⟩⟩

end Sys2Proof.Machine

/-! SUPPORT. The index and memory family (44_index_memory.md): the words of family F, the three values I can take, and the blocks that
the stores and the load move between I and the registers. Everything else stays by the frame of every instruction. -/

namespace Sys2Proof

/-! ## The words of family F (R92, R94) -/

theorem decodeWord_familyF {i : Instr} {x : RegIdx} (kk : Byte) (h : encode i = packXkk 0xF x kk) :
    decodeWord (BitVec.ofNat 16 (0xF000 + kk.toNat + 256 * x.val)) = .ok i := by
  have hsum : 0xF000 + kk.toNat + 256 * x.val = 0xF * 4096 + 256 * x.val + kk.toNat := by omega
  rw [decodeWord_eq_ok_iff, h, hsum]
  exact ofNat_eq_packXkk 0xF x kk

end Sys2Proof

namespace Sys2Proof.Machine

/-! ## The index register (R190 to R192) -/

theorem zextByte_toNat (b : Byte) : (zextByte b).toNat = b.toNat := BitVec.toNat_setWidth_of_le (by decide)

theorem add_zextByte_toNat (a : Word) (b : Byte) : (a + zextByte b).toNat = (a.toNat + b.toNat) % 65536 := by
  rw [BitVec.toNat_add, zextByte_toNat]

/-- No glyph address wraps: FONT_BASE is at most 0x1B0, and the offset at most 5 * 255. -/
theorem glyphAddr_toNat (font : Config.Font) (b : Byte) : (glyphAddr font b).toNat = font.base.val + 5 * b.toNat := by
  have hbase := font.base.isLt
  have hfive : (5 : Word).toNat = 5 := rfl
  rw [glyphAddr, BitVec.toNat_add, BitVec.toNat_mul, BitVec.toNat_ofNat, zextByte_toNat, hfive]
  omega

/-- Settles O39: I is the address operand, which has 12 bits. -/
theorem loadIndex : Obligations.LoadIndex := by
  unfold Obligations.LoadIndex
  intro nnn
  have hword := ofNat_eq_packNnn 0xA nnn
  have hi := zextAddr_toNat nnn
  have hlt : (zextAddr nnn).toNat < 0x1000 := by rw [hi]; exact nnn.isLt
  exact ⟨decodeWord_eq_ok_iff.2 hword, fun s => ⟨_, exec_eq (.ldINnn nnn) s, hi, hlt, execNext_onlyChanged (.ldINnn nnn) s⟩⟩

/-- Settles O40: the sum is taken in 16 bits, and I is the only part written. -/
theorem addToIndex : Obligations.AddToIndex := by
  unfold Obligations.AddToIndex
  intro x
  exact ⟨decodeWord_familyF 0x1E rfl, fun s => ⟨_, exec_eq (.addIVx x) s, add_zextByte_toNat s.i (getV x s),
    execNext_onlyChanged (.addIVx x) s⟩⟩

/-- Settles O41: the glyph address of the whole byte does not wrap. -/
theorem pointAtGlyph : Obligations.PointAtGlyph := by
  unfold Obligations.PointAtGlyph
  intro x
  exact ⟨decodeWord_familyF 0x29 rfl, fun s => ⟨_, exec_eq (.ldFVx x) s, glyphAddr_toNat s.font (getV x s),
    execNext_onlyChanged (.ldFVx x) s⟩⟩

/-! ## Stores at I (R193, R194) -/

/-- Byte `k` of a block stored at I is found at I + k. -/
theorem memRead_store_insideBlock (s : State) (bs : List Byte) (hlen : bs.length ≤ 4096) (k : Nat) (hk : k < bs.length) :
    memRead (effAddr s k) (storeBytes (effAddr s 0) bs s) = bs[k] := by
  rw [← effAddr_zero_add]
  exact memRead_storeBytes_inside bs _ s hlen k hk

/-- Each decimal digit of a byte fits in a byte. -/
theorem bcdDigits_toNat (b : Byte) :
    (bcdDigits b).map BitVec.toNat = [b.toNat / 100, b.toNat / 10 % 10, b.toNat % 10] := by
  have hhundreds : b.toNat / 100 < 256 := by omega
  have htens : b.toNat / 10 % 10 < 256 := by omega
  have hones : b.toNat % 10 < 256 := by omega
  simp only [bcdDigits, List.map_cons, List.map_nil, BitVec.toNat_ofNat, Nat.mod_eq_of_lt hhundreds, Nat.mod_eq_of_lt htens,
    Nat.mod_eq_of_lt hones]

/-- Fx33 stores the three digits, digit k at I + k (R193). -/
theorem memRead_execNext_ldBVx_toNat (x : RegIdx) (s : State) (k : Nat) (hk : k < 3) :
    (memRead (effAddr s k) (execNext (.ldBVx x) s)).toNat =
      [(getV x s).toNat / 100, (getV x s).toNat / 10 % 10, (getV x s).toNat % 10][k] := by
  have hstored : memRead (effAddr s k) (execNext (.ldBVx x) s) = (bcdDigits (getV x s))[k] :=
    memRead_store_insideBlock s (bcdDigits (getV x s)) (by decide : 3 ≤ 4096) k hk
  simp only [hstored, ← bcdDigits_toNat]
  exact (List.getElem_map BitVec.toNat).symm

/-- Settles O42: the digits one by one, and the frame in bytes and in parts. -/
theorem storeBcd : Obligations.StoreBcd := by
  unfold Obligations.StoreBcd
  intro x
  refine ⟨decodeWord_familyF 0x33 rfl, fun s => ?_⟩
  have hdigit := memRead_execNext_ldBVx_toNat x s
  exact ⟨_, exec_eq (.ldBVx x) s, hdigit 0 (by decide), hdigit 1 (by decide), hdigit 2 (by decide),
    execNext_bytesKept (.ldBVx x) s, execNext_onlyChanged (.ldBVx x) s⟩

/-- Settles O43: register k is stored at I + k, and the frame in bytes and in parts. -/
theorem storeRegisters : Obligations.StoreRegisters := by
  unfold Obligations.StoreRegisters
  intro x
  exact ⟨decodeWord_familyF 0x55 rfl, fun s => ⟨_, exec_eq (.ldMemVx x) s, fun _ hk => memRead_execNext_ldMemVx hk s,
    execNext_bytesKept (.ldMemVx x) s, execNext_onlyChanged (.ldMemVx x) s⟩⟩

/-! ## The load from I (R195) -/

/-- Fx65 loads V0 to Vx, register k from I + k. -/
theorem getV_execNext_ldVxMem {x k : RegIdx} (h : k ≤ x) (s : State) :
    getV k (execNext (.ldVxMem x) s) = memRead (effAddr s k.val) s :=
  (getV_loadRegs s _ x.isLt k).trans (if_pos (Nat.lt_succ_of_le h))

/-- Settles O44: the registers loaded one by one, and the frame in registers and in parts. -/
theorem loadRegisters : Obligations.LoadRegisters := by
  unfold Obligations.LoadRegisters
  intro x
  exact ⟨decodeWord_familyF 0x65 rfl, fun s => ⟨_, exec_eq (.ldVxMem x) s, fun _ hk => getV_execNext_ldVxMem hk s,
    execNext_frame s (.ldVxMem x)⟩⟩

end Sys2Proof.Machine

/-! SUPPORT. The random, keypad and timer family (45_random_keypad_timers.md): the words of family E, the masked random byte, the keypad's
lowest key, and what one step and a run of steps make of the timers. -/

namespace Sys2Proof

/-! ## The words of family E (R92, R94) -/

theorem decodeWord_familyE {i : Instr} {x : RegIdx} (kk : Byte) (h : encode i = packXkk 0xE x kk) :
    decodeWord (BitVec.ofNat 16 (0xE000 + kk.toNat + 256 * x.val)) = .ok i := by
  have hsum : 0xE000 + kk.toNat + 256 * x.val = 0xE * 4096 + 256 * x.val + kk.toNat := by omega
  rw [decodeWord_eq_ok_iff, h, hsum]
  exact ofNat_eq_packXkk 0xE x kk

end Sys2Proof

namespace Sys2Proof.Machine

/-! ## The host's inputs of this step (R30, R31) -/

theorem rndNow_supplyInput (keys : BitVec 16) (rnd : Byte) (s : State) : rndNow (supplyInput keys rnd s) = rnd := rfl

theorem keysNow_supplyInput (keys : BitVec 16) (rnd : Byte) (s : State) : keysNow (supplyInput keys rnd s) = keys := rfl

theorem keysNow_of_head {s : State} {now : StepInput} (h : s.inputs[0]? = some now) : keysNow s = now.keys := by
  obtain ⟨rest, hinputs⟩ := List.head?_eq_some_iff.1 (List.head?_eq_getElem?.trans h)
  rw [keysNow, hinputs]

/-! ## The random byte (R200) -/

theorem byte_and_toNat_le (b kk : Byte) : (b &&& kk).toNat ≤ kk.toNat := by
  rw [BitVec.toNat_and]
  exact Nat.and_le_right

theorem byte_and_outside_mask (b kk : Byte) : b &&& kk &&& ~~~kk = 0 := by
  rw [BitVec.and_assoc, BitVec.and_not_self]
  exact BitVec.and_zero

theorem getV_execNext_rndVxKk (x : RegIdx) (kk : Byte) (s : State) : getV x (execNext (.rndVxKk x kk) s) = rndNow s &&& kk :=
  getV_setV_self x _ s

/-- Settles O46: the byte written is a masked one, and no bit outside a mask survives it. -/
theorem maskedRandomByte : Obligations.MaskedRandomByte := by
  unfold Obligations.MaskedRandomByte
  intro x kk
  have hword := ofNat_eq_packXkk 0xC x kk
  refine ⟨decodeWord_eq_ok_iff.2 hword, fun s => ?_, rndNow_supplyInput⟩
  have hbyte := getV_execNext_rndVxKk x kk s
  refine ⟨_, exec_eq (.rndVxKk x kk) s, hbyte, ?bound, ?outside, execNext_frame s (.rndVxKk x kk)⟩
  case bound => rw [hbyte]; exact byte_and_toNat_le _ kk
  case outside => rw [hbyte]; exact byte_and_outside_mask _ kk

/-! ## The key skips (R201, R202) -/

theorem skipIf_not_pc (b : Bool) (s : State) : (skipIf (!b) s).pc = if b = true then s.pc else s.pc + 2 := by
  cases b <;> rfl

/-- Settles O47: both meanings are one conditional skip, on the key and on its negation. -/
theorem skipOnKey : Obligations.SkipOnKey := by
  unfold Obligations.SkipOnKey
  intro x
  exact ⟨decodeWord_familyE 0x9E rfl, decodeWord_familyE 0xA1 rfl, fun s =>
    ⟨_, _, exec_eq (.skpVx x) s, exec_eq (.sknpVx x) s,
      skipIf_pc s (keyDown (getV x s) s), execNext_onlyChanged (.skpVx x) s,
      skipIf_not_pc (keyDown (getV x s) s) s, execNext_onlyChanged (.sknpVx x) s⟩, keysNow_supplyInput⟩

/-! ## The wait for a key (R204) -/

/-- The key that is down while every lower one is up is the lowest. -/
theorem lowestKey_of_least {keys : BitVec 16} {k : Fin 16} (hk : keys.getLsbD k.val = true)
    (hlower : ∀ j < k, keys.getLsbD j.val = false) : lowestKey keys = some k := by
  cases hlow : lowestKey keys with
  | none =>
    rw [(lowestKey_eq_none keys).1 hlow, BitVec.ofNat_eq_ofNat, BitVec.getLsbD_zero] at hk
    cases hk
  | some m =>
    obtain ⟨hm, hbelow⟩ := lowestKey_eq_some hlow
    obtain hlt | heq | hgt := Nat.lt_trichotomy m.val k.val
    · rw [hlower m hlt] at hm; cases hm
    · rw [Fin.ext heq]
    · rw [hbelow k hgt] at hk; cases hk

theorem execNext_ldVxK_of_noKey (x : RegIdx) {s : State} (h : keysNow s = 0) :
    execNext (.ldVxK x) s = setPc (s.pc - 2) s :=
  execNext_ldVxK_of_none x ((lowestKey_eq_none _).2 h)

theorem getV_execNext_ldVxK_toNat (x : RegIdx) {s : State} {k : Fin 16} (h : lowestKey (keysNow s) = some k) :
    (getV x (execNext (.ldVxK x) s)).toNat = k.val := by
  rw [execNext_ldVxK_of_some x h, getV_setV_self, BitVec.toNat_ofNat]
  omega

/-- Settles O49: with no key down only the pc is written, with a lowest key only Vx is. -/
theorem waitForKey : Obligations.WaitForKey := by
  unfold Obligations.WaitForKey
  intro x
  refine ⟨decodeWord_familyF 0x0A rfl, fun s => ⟨_, exec_eq (.ldVxK x) s, fun hnone => ?up, fun k hk hlower => ?down⟩⟩
  case up =>
    rw [execNext_ldVxK_of_noKey x hnone]
    exact ⟨rfl, onlyChanged_pc s _⟩
  case down =>
    have hlow := lowestKey_of_least hk hlower
    refine ⟨getV_execNext_ldVxK_toNat x hlow, execNext_regsKept (.ldVxK x) s, ?_⟩
    rw [execNext_ldVxK_of_some x hlow]
    exact onlyChanged_regs s _

/-! ## The timers in one step (R203, R205, R206, R208) -/

/-- An instruction that cannot fault completes its step: the timers decay and the inputs move on (R127, R128). -/
theorem step_of_latch_notMem {s : State} {i : Instr} (hrun : ¬ halted s) (hdecode : decodeWord (fetch s) = .ok i)
    (hlatch : Part.latch ∉ writtenParts i) : step s = .next (advanceInputs (decayTimers (execNext i (advancePc s)))) := by
  have hkept : (execNext i (advancePc s)).fault = s.fault := execNext_onlyChanged i (advancePc s) .latch hlatch
  exact step_of_safe_exec hrun hdecode (exec_eq i _) (by rwa [halted, hkept])

/-- Settles O48: the meaning copies DT, and the decay that follows touches no register. -/
theorem readDelayTimer : Obligations.ReadDelayTimer := by
  unfold Obligations.ReadDelayTimer
  intro x
  exact ⟨decodeWord_familyF 0x07 rfl,
    fun s => ⟨_, exec_eq (.ldVxDt x) s, getV_setV_self x s.dt s, execNext_frame s (.ldVxDt x)⟩,
    fun s hrun hdecode => ⟨_, step_of_latch_notMem hrun hdecode (by simp [writtenParts]), getV_setV_self x s.dt (advancePc s),
      decay_toNat s.dt⟩⟩

/-- Settles O50: each meaning sets one timer, and the decay of the same step applies to the value just set. -/
theorem setTimers : Obligations.SetTimers := by
  unfold Obligations.SetTimers
  intro x
  exact ⟨decodeWord_familyF 0x15 rfl, decodeWord_familyF 0x18 rfl,
    fun s => ⟨_, _, exec_eq (.ldDtVx x) s, exec_eq (.ldStVx x) s, rfl, execNext_onlyChanged (.ldDtVx x) s,
      rfl, execNext_onlyChanged (.ldStVx x) s⟩,
    fun s hrun hdecode => ⟨_, step_of_latch_notMem hrun hdecode (by simp [writtenParts]), decay_toNat (getV x s)⟩,
    fun s hrun hdecode => ⟨_, step_of_latch_notMem hrun hdecode (by simp [writtenParts]), decay_toNat (getV x s)⟩⟩

/-! ## The delay timer over a run of safe steps (R208, R223) -/

theorem step_answers_next (s : State) : ∃ t, step s = .next t := by
  by_cases hs : halted s
  · exact ⟨_, step_of_halted hs⟩
  · cases hdecode : decodeWord (fetch s) with
    | error e => exact ⟨_, step_of_decode_error hs hdecode⟩
    | ok i => exact ⟨_, step_of_decode_ok hs hdecode⟩

theorem SafeFor.safe {k : Nat} {s : State} (h : SafeFor k s) : Safe s := by
  obtain ⟨t, ht, hsafe⟩ := h 0 (Nat.zero_le k)
  obtain rfl : s = t := Host.Outcome.next.inj ht
  exact hsafe

theorem SafeFor.of_step {k : Nat} {s t : State} (h : SafeFor (k + 1) s) (hstep : step s = .next t) : SafeFor k t := by
  intro j hj
  rw [← core_run_succ j hstep]
  exact h (j + 1) (Nat.succ_le_succ hj)

/-- A step between safe states that executes no Fx15 decays DT once. -/
theorem dt_of_safe_step {s t : State} (hs : Safe s) (hstep : step s = .next t) (ht : Safe t)
    (hnoSet : ∀ x, decodeWord (fetch s) ≠ .ok (.ldDtVx x)) : t.dt.toNat = s.dt.toNat - 1 := by
  cases hdecode : decodeWord (fetch s) with
  | error e =>
    obtain rfl := Host.Outcome.next.inj ((step_of_decode_error hs hdecode).symm.trans hstep)
    have hhalted : halted (takeFault .decodeError s.pc (fetch s) s) := nofun
    exact absurd hhalted ht
  | ok i =>
    obtain ⟨hdt, -⟩ := timersDecayOncePerCompletedStep s t i hs hdecode hstep ht
    cases i with
    | ldDtVx x => exact absurd hdecode (hnoSet x)
    | _ => exact hdt

/-- Settles O51, by induction on the number of steps: the first one decays DT once, and the others are a run from where it leads. -/
theorem delayTimerCountsSteps : Obligations.DelayTimerCountsSteps := by
  unfold Obligations.DelayTimerCountsSteps
  intro k
  induction k with
  | zero => exact fun s _ _ => ⟨s, core_run_zero s, rfl⟩
  | succ k ih =>
    intro s hsafe hnoSet
    obtain ⟨t, hstep⟩ := step_answers_next s
    have htail : SafeFor k t := hsafe.of_step hstep
    have hdt : t.dt.toNat = s.dt.toNat - 1 :=
      dt_of_safe_step hsafe.safe hstep htail.safe fun x => hnoSet 0 k.succ_pos s x (core_run_zero s)
    have hnoSetTail : ∀ j < k, ∀ u x, core.run j t = .next u → decodeWord (fetch u) ≠ .ok (.ldDtVx x) :=
      fun j hj u x hu => hnoSet (j + 1) (Nat.succ_lt_succ hj) u x ((core_run_succ j hstep).trans hu)
    obtain ⟨u, hrun, hu⟩ := ih t htail hnoSetTail
    exact ⟨u, (core_run_succ k hstep).trans hrun, by omega⟩

/-! ## Waiting for a key while the timers decay (R204, R245, R249) -/

theorem Part.Same.refl (p : Part) (s : State) : p.Same s s := by
  cases p with
  | regs | stack | memory => exact fun _ => rfl
  | framebuffer => exact fun _ _ => rfl
  | hostInputs => exact ⟨rfl, rfl⟩
  | _ => exact Eq.refl _

theorem Part.Same.trans {p : Part} {s t u : State} (h : p.Same s t) (h' : p.Same t u) : p.Same s u := by
  cases p with
  | regs | stack | memory => exact fun a => (h' a).trans (h a)
  | framebuffer => exact fun px py => (h' px py).trans (h px py)
  | hostInputs =>
    obtain ⟨hin, hidx⟩ := h
    obtain ⟨hin', hidx'⟩ := h'
    exact ⟨hin'.trans hin, hidx'.trans hidx⟩
  | _ => exact Eq.trans h' h

theorem onlyChanged_refl (parts : List Part) (s : State) : OnlyChanged parts s s := fun p _ => Part.Same.refl p s

theorem OnlyChanged.trans {parts : List Part} {s t u : State} (h : OnlyChanged parts s t) (h' : OnlyChanged parts t u) :
    OnlyChanged parts s u := fun p hp => (h p hp).trans (h' p hp)

theorem onlyChanged_finish (s : State) : OnlyChanged [.delay, .sound, .hostInputs] s (finish s) := by
  by_cases hs : halted s
  · rw [finish_of_halted hs]
    exact onlyChanged_refl _ s
  · rw [finish_of_safe hs]
    intro p hp
    cases p <;> simp_all [Part.Same, memRead, getV]

section
variable {s : State} (hrun : ¬ halted s)
include hrun

theorem finish_dt_toNat : (finish s).dt.toNat = s.dt.toNat - 1 := by
  rw [finish_of_safe hrun]
  exact decay_toNat s.dt

theorem finish_st_toNat : (finish s).st.toNat = s.st.toNat - 1 := by
  rw [finish_of_safe hrun]
  exact decay_toNat s.st

theorem finish_inputs : (finish s).inputs = s.inputs.tail := by
  rw [finish_of_safe hrun]
  rfl

end

/-- With no key down Fx0A takes the advance of the pc back and does nothing else. -/
theorem execNext_ldVxK_waits (x : RegIdx) {s : State} (h : keysNow s = 0) : execNext (.ldVxK x) (advancePc s) = s := by
  have hpc : s.pc + 2 - 2 = s.pc := BitVec.add_sub_cancel _ _
  calc execNext (.ldVxK x) (advancePc s) = { s with pc := s.pc + 2 - 2 } := execNext_ldVxK_of_noKey x (s := advancePc s) h
    _ = s := by rw [hpc]

theorem step_waits {s : State} {x : RegIdx} (hrun : ¬ halted s) (hdecode : decodeWord (fetch s) = .ok (.ldVxK x))
    (h : keysNow s = 0) : step s = .next (finish s) := by
  rw [step_of_decode_ok hrun hdecode, execNext_ldVxK_waits x h]

/-- Settles O52, by induction on the number of steps: a waiting step is `finish` alone, after which the machine waits as before. -/
theorem waitingKeepsDecaying : Obligations.WaitingKeepsDecaying := by
  unfold Obligations.WaitingKeepsDecaying
  intro k s x
  induction k generalizing s with
  | zero => exact fun _ _ _ => ⟨s, core_run_zero s, onlyChanged_refl _ s, rfl, rfl, rfl⟩
  | succ k ih =>
    intro hrun hdecode hup
    obtain ⟨now, hnow, hkeys⟩ := hup 0 k.succ_pos
    have hstep : step s = .next (finish s) := step_waits hrun hdecode ((keysNow_of_head hnow).trans hkeys)
    have hupTail : ∀ j < k, ∃ now, (finish s).inputs[j]? = some now ∧ now.keys = 0 := by
      intro j hj
      rw [finish_inputs hrun, List.getElem?_tail]
      exact hup (j + 1) (Nat.succ_lt_succ hj)
    obtain ⟨t, htrun, hframe, htdt, htst, htin⟩ :=
      ih (finish s) (mt (halted_finish s).1 hrun) (by rwa [fetch_finish]) hupTail
    refine ⟨t, (core_run_succ k hstep).trans htrun, (onlyChanged_finish s).trans hframe, ?delay, ?sound, ?inputs⟩
    case delay => rw [htdt, finish_dt_toNat hrun, Nat.sub_sub, Nat.add_comm]
    case sound => rw [htst, finish_st_toNat hrun, Nat.sub_sub, Nat.add_comm]
    case inputs => rw [htin, finish_inputs hrun, List.drop_tail]

end Sys2Proof.Machine

/-! SUPPORT. The exceptions family (60_exceptions.md): a fault leaves the state before the step with only FAULT written, and the halt
lasts. -/

namespace Sys2Proof.Machine

/-! ## A faulting step is precise (R123, R126, R218) -/

/-- On a running machine only a `raise` of the instruction itself halts: RET on the empty stack or CALL on the full one. -/
theorem execNext_eq_raise_of_halted {i : Instr} {s : State} (hrun : ¬ halted s) (hhalt : halted (execNext i s)) :
    ∃ c, execNext i s = raise c i s := by
  have hnotKept : (execNext i s).fault ≠ s.fault := fun hkept => hrun (by rwa [halted, hkept] at hhalt)
  cases i with
  | ret =>
    by_cases h : s.sp.val = 0
    · exact ⟨_, execNext_ret_of_empty h⟩
    · exact absurd (by rw [execNext_ret_of_pos (Nat.pos_of_ne_zero h)]) hnotKept
  | call nnn =>
    by_cases h : s.sp.val < 16
    · exact absurd (by rw [execNext_call_of_lt nnn h]) hnotKept
    · exact ⟨_, execNext_call_of_full nnn (by omega)⟩
  | _ => exact absurd (execNext_onlyChanged _ s .latch (by simp [writtenParts])) hnotKept

/-- A `raise` undoes the advance of the pc (R126). -/
theorem raise_advancePc (c : FaultCause) (i : Instr) (s : State) :
    raise c i (advancePc s) = takeFault c s.pc (encode i) s := by
  have hpc : (advancePc s).pc - 2 = s.pc := BitVec.add_sub_cancel s.pc 2
  rw [raise, hpc]
  rfl

/-- Whatever the cause, a step that halts the machine takes a fault at the pc and with the word it fetched; no timer decay follows. -/
theorem step_eq_takeFault_of_halted {s t : State} (hrun : ¬ halted s) (hstep : step s = .next t) (hhalt : halted t) :
    ∃ c, t = takeFault c s.pc (fetch s) s := by
  obtain ⟨hhalted, -⟩ | ⟨-, e, -, rfl⟩ | ⟨-, i, u, hdecode, hexec, rfl⟩ := step_cases hstep
  · exact absurd hhalted hrun
  · exact ⟨_, rfl⟩
  · rw [halted_finish] at hhalt
    rw [finish_of_halted hhalt]
    obtain rfl := execNext_of_exec hexec
    obtain ⟨c, hraise⟩ := execNext_eq_raise_of_halted (s := advancePc s) hrun hhalt
    exact ⟨c, by rw [hraise, raise_advancePc, encode_of_decodeWord hdecode]⟩

/-- Settles O10: a step that halts takes a fault on the state before it, and taking a fault at the pc writes FAULT alone. -/
theorem faultingStepIsPrecise : Obligations.FaultingStepIsPrecise := by
  unfold Obligations.FaultingStepIsPrecise
  intro s t hrun hstep hhalt
  obtain ⟨c, rfl⟩ := step_eq_takeFault_of_halted hrun hstep hhalt
  exact ⟨rfl, rfl, rfl⟩

/-! ## The halt lasts (R219, R220) -/

/-- Settles O53, by induction on the number of steps: each one stays where it is. -/
theorem haltLastsUnderStepping : Obligations.HaltLastsUnderStepping := by
  unfold Obligations.HaltLastsUnderStepping
  intro k s hs
  induction k with
  | zero => exact core_run_zero s
  | succ k ih => exact (core_run_succ k (step_of_halted hs)).trans ih

end Sys2Proof.Machine

/-! SUPPORT. The reset and hazards family (70_reset_and_hazards.md): nothing stalls and nothing is refused. -/

namespace Sys2Proof.Machine

/-! ## Every step completes (R249, R231) -/

/-- Settles O12: every meaning answers the state `execNext` names, and every step, halted or faulting too, answers one as well. -/
theorem everyStepCompletes : Obligations.EveryStepCompletes := by
  unfold Obligations.EveryStepCompletes
  exact ⟨fun i s => ⟨execNext i s, exec_eq i s⟩, step_answers_next⟩

end Sys2Proof.Machine
